-- ==== Sys2Proof/Word.lean ====
section
/-! DEFINITION. The word type: a stored word is a text (R6, R9, R46), the accumulator holds 16 bits (R14), an
address is one of 0..31 (R32), and an address operand is direct or indirect (R50). -/

namespace Sys2Proof

/-- A word of the Word Store, a token, or the content of IR: a text string, as its list of characters
(R9, R12; the representation is log 1, DEDUCED). -/
abbrev Text := List Char

/-- A value of the accumulator: 16 bits, read as a natural number 0..65535 (R14). -/
abbrev Value := BitVec 16

/-- A valid address of the Word Store, 0..31 (R32). -/
abbrev Addr := Fin 32

/-- How an address operand is written: `MN a` or `MN I a` (R50). -/
inductive AddrMode where
  | direct
  | indirect
deriving DecidableEq, Repr

end Sys2Proof
end

