-- ==== Sys2Proof/Config.lean ====
section
/-! DEFINITION. What is fixed for the machine (R7), and its one open parameter: the host's answers to
`on_input_request` (R7, R28, D20). -/

namespace Sys2Proof

/-- `MEM_WORDS`: the capacity of the Word Store (R7, R22). -/
abbrev Config.memWords : Nat := 32

/-- `INPUT_MAX`: the largest operator input, an 11-bit value (R7, R56). -/
abbrev Config.inputMax : Nat := 2047

/-- `inputOracle`: the answer to the k-th `on_input_request`, any value 0..2047, and no law relates the answers
(R7, R28, R130; U16 `parameter`). A free value: it has no body, so no proof can learn one of its values (log 2). -/
opaque Config.inputOracle : Nat → Fin 2048

end Sys2Proof
end

