-- ==== Sys2Proof/Syntax.lean ====
section
/-! DEFINITION. The 35 instructions of spec/opcode_table.json (R2), as the decoder gives them (R57): an address
operand is a mode and a mathematical integer (R54), a literal is an integer. -/

namespace Sys2Proof

/-- One constructor per row of the opcode table, in the table's order (R2, R55). -/
inductive Instr where
  /-- R102 -/
  | lda (m : AddrMode) (a : Int)
  /-- R103 -/
  | str (m : AddrMode) (a : Int)
  /-- R104 -/
  | jmp (m : AddrMode) (a : Int)
  /-- R105 -/
  | jze (m : AddrMode) (a : Int)
  /-- R106 -/
  | jsa (m : AddrMode) (a : Int)
  /-- R107 -/
  | and (m : AddrMode) (a : Int)
  /-- R108 -/
  | or (m : AddrMode) (a : Int)
  /-- R109 -/
  | xor (m : AddrMode) (a : Int)
  /-- R110 -/
  | add (m : AddrMode) (a : Int)
  /-- R111 -/
  | sub (m : AddrMode) (a : Int)
  /-- R112 -/
  | mul (m : AddrMode) (a : Int)
  /-- R113 -/
  | div (m : AddrMode) (a : Int)
  /-- R114 -/
  | inc (m : AddrMode) (a : Int)
  /-- R115 -/
  | dec (m : AddrMode) (a : Int)
  /-- R116: the operand is a literal, any integer. -/
  | cmp (n : Int)
  /-- R118 -/
  | clr
  /-- R119 -/
  | cre
  /-- R120 -/
  | cta
  /-- R121 -/
  | cte
  /-- R122 -/
  | skz
  /-- R123 -/
  | ina
  /-- R124 -/
  | skp
  /-- R125 -/
  | skn
  /-- R126 -/
  | cla
  /-- R127 -/
  | cra
  /-- R128 -/
  | hal
  /-- R130: `INP n` (some n) adds a literal, `INP` (none) adds an answer of the host. -/
  | inp (n : Option Int)
  /-- R131 -/
  | out
  /-- R132 -/
  | sfi
  /-- R133 -/
  | sfo
  /-- R134 -/
  | put
  /-- R135 -/
  | opt
  /-- R136 -/
  | spi
  /-- R137 -/
  | spo
  /-- R138 -/
  | sie
deriving DecidableEq, Repr

end Sys2Proof
end

