-- ==== Sys2Proof/WellFormed.lean ====
section
/-! DEFINITION. Which terms of Instr some word decodes to. The one bound a decoded operand obeys is that of INP's
literal (R56); an address operand is any integer, checked at resolution and not at decode (R54), and the literal of
CMP is not bounded (R56, R116). -/

namespace Sys2Proof

/-- The instruction is one the decoder can give (R55, R56). -/
def Instr.wf (i : Instr) : Bool :=
  match i with
  | .inp (some n) => decide (0 ≤ n) && decide (n ≤ Config.inputMax)
  | .inp none => true
  | .lda _ _ | .str _ _ | .jmp _ _ | .jze _ _ | .jsa _ _ | .and _ _ | .or _ _ | .xor _ _ => true
  | .add _ _ | .sub _ _ | .mul _ _ | .div _ _ | .inc _ _ | .dec _ _ | .cmp _ => true
  | .clr | .cre | .cta | .cte | .skz | .ina | .skp | .skn | .cla | .cra | .hal => true
  | .out | .sfi | .sfo | .put | .opt | .spi | .spo | .sie => true

end Sys2Proof
end

