-- ==== Sys2Proof/Decode.lean ====
section
/-! DEFINITION. Text words: trimming, tokens and decimal numbers (R9), word classes (R47, R48), the decoder (R58), and
the encoder that writes an instruction's canonical spelling (R63). Everything is structural recursion on the text. -/

namespace Sys2Proof

/-! ## Trimming and tokens (R9) -/

/-- ASCII whitespace: space, tab, LF, VT, FF, CR (R9). -/
def isSpace (c : Char) : Bool :=
  c.toNat == 32 || (decide (9 ≤ c.toNat) && decide (c.toNat ≤ 13))

/-- The text without its leading whitespace. -/
def trimLeft : Text → Text
  | [] => []
  | c :: cs => if isSpace c then trimLeft cs else c :: cs

/-- The text without its trailing whitespace. -/
def trimRight : Text → Text
  | [] => []
  | c :: cs => if isSpace c && (trimRight cs).isEmpty then [] else c :: trimRight cs

/-- `trim(w)`: leading and trailing ASCII whitespace removed (R9). -/
def trim (w : Text) : Text := trimRight (trimLeft w)

/-- Put a token in front of a list of tokens, unless it is empty. -/
def consToken (t : Text) (ts : List Text) : List Text := if t.isEmpty then ts else t :: ts

/-- The token that the text starts with (empty where it starts with whitespace) and the tokens after it. -/
def splitFirst : Text → Text × List Text
  | [] => ([], [])
  | c :: cs =>
    if isSpace c then ([], consToken (splitFirst cs).1 (splitFirst cs).2)
    else (c :: (splitFirst cs).1, (splitFirst cs).2)

/-- `tokens(w)`: the text split at runs of ASCII whitespace into non-empty tokens (R9, R49). -/
def tokens (w : Text) : List Text := consToken (splitFirst w).1 (splitFirst w).2

/-! ## Decimal numbers (R9) -/

/-- The value of a decimal digit 0..9. -/
def digitVal (c : Char) : Option Nat :=
  if 48 ≤ c.toNat ∧ c.toNat ≤ 57 then some (c.toNat - 48) else none

/-- The value of a run of digits read after a value `acc`, none at the first character that is no digit. -/
def digitsValue : Nat → Text → Option Nat
  | acc, [] => some acc
  | acc, c :: cs =>
    match digitVal c with
    | none => none
    | some d => digitsValue (10 * acc + d) cs

/-- The value of a text that matches `[0-9]+`. -/
def natNum : Text → Option Nat
  | [] => none
  | c :: cs => digitsValue 0 (c :: cs)

/-- `num(t)`: the integer a text that matches `-?[0-9]+` denotes, none for any other text (R9, R48). -/
def num : Text → Option Int
  | [] => none
  | c :: cs => if c = '-' then (natNum cs).map fun n : Nat => -(n : Int)
    else (natNum (c :: cs)).map fun n : Nat => (n : Int)

/-- The character of a digit. -/
def digitChar (d : Nat) : Char := Char.ofNat (48 + d)

/-- The decimal digits of n, by at most `fuel` divisions. -/
def litFuel : Nat → Nat → Text
  | 0, _ => []
  | fuel + 1, n => if n < 10 then [digitChar n] else litFuel fuel (n / 10) ++ [digitChar (n % 10)]

/-- `lit(n)`: the canonical decimal text of a natural number (R9). -/
def lit (n : Nat) : Text := litFuel (n + 1) n

/-- The canonical decimal text of an integer, as an operand is written (R63). -/
def litInt : Int → Text
  | .ofNat n => lit n
  | .negSucc n => '-' :: lit (n + 1)

/-! ## Word classes (R47, R48) -/

/-- The class of a word, a data word with its value. -/
inductive WordClass where
  | empty
  | data (v : Int)
  | instr
deriving DecidableEq, Repr

/-- `class(w)` of R47, with the value of R48. -/
def classify (w : Text) : WordClass :=
  if (trim w).isEmpty then .empty
  else
    match num (trim w) with
    | some v => .data v
    | none => .instr

/-! ## The decoder (R50 to R62) -/

/-- Why a word is malformed (R142). -/
inductive MalformedReason where
  | tokenCount
  | badMarker
  | badOperand
  | shapeNotAllowed
  | literalRange
deriving DecidableEq, Repr

/-- The two decode errors, each with what its record holds (R140, R141, R142). -/
inductive DecodeError where
  | unknownMnemonic (mnemonic : Text)
  | malformedInstruction (reason : MalformedReason)
deriving DecidableEq, Repr

/-- The operand kind of a mnemonic with the instruction it builds: the rows of R55's table. -/
inductive Shape where
  /-- An address operand: formats D and N. -/
  | address (build : AddrMode → Int → Instr)
  /-- A literal operand: format D. -/
  | literal (build : Int → Instr)
  /-- No operand: format R. -/
  | bare (i : Instr)
  /-- INP: format R, or format D with a literal 0..2047. -/
  | input

/-- The memory-reference rows of the opcode table (R2, R55). -/
def memoryTable : List (Text × Shape) := [
  (['L', 'D', 'A'], .address .lda), (['S', 'T', 'R'], .address .str), (['J', 'M', 'P'], .address .jmp),
  (['J', 'Z', 'E'], .address .jze), (['J', 'S', 'A'], .address .jsa), (['A', 'N', 'D'], .address .and),
  (['O', 'R'], .address .or), (['X', 'O', 'R'], .address .xor), (['A', 'D', 'D'], .address .add),
  (['S', 'U', 'B'], .address .sub), (['M', 'U', 'L'], .address .mul), (['D', 'I', 'V'], .address .div),
  (['I', 'N', 'C'], .address .inc), (['D', 'E', 'C'], .address .dec), (['C', 'M', 'P'], .literal .cmp)]

/-- The register-reference rows of the opcode table (R2, R55). -/
def registerTable : List (Text × Shape) := [
  (['C', 'L', 'R'], .bare .clr), (['C', 'R', 'E'], .bare .cre), (['C', 'T', 'A'], .bare .cta),
  (['C', 'T', 'E'], .bare .cte), (['S', 'K', 'Z'], .bare .skz), (['I', 'N', 'A'], .bare .ina),
  (['S', 'K', 'P'], .bare .skp), (['S', 'K', 'N'], .bare .skn), (['C', 'L', 'A'], .bare .cla),
  (['C', 'R', 'A'], .bare .cra), (['H', 'A', 'L'], .bare .hal)]

/-- The I/O-reference rows of the opcode table (R2, R55). -/
def ioTable : List (Text × Shape) := [
  (['I', 'N', 'P'], .input), (['O', 'U', 'T'], .bare .out), (['S', 'F', 'I'], .bare .sfi),
  (['S', 'F', 'O'], .bare .sfo), (['P', 'U', 'T'], .bare .put), (['O', 'P', 'T'], .bare .opt),
  (['S', 'P', 'I'], .bare .spi), (['S', 'P', 'O'], .bare .spo), (['S', 'I', 'E'], .bare .sie)]

/-- `MNEMONICS` with `FORMATS` (R2, R55, R58). -/
def opcodeTable : List (Text × Shape) := memoryTable ++ registerTable ++ ioTable

/-- The row of a mnemonic; tokens are compared exactly, capitals included (R49, R52). -/
def lookup (m : Text) : Option Shape := (opcodeTable.find? fun row => decide (row.1 = m)).map fun row => row.2

/-- A one-token word, format R (R50, R55). -/
def decodeBare : Shape → Except DecodeError Instr
  | .bare i => .ok i
  | .input => .ok (.inp none)
  | .address _ => .error (.malformedInstruction .shapeNotAllowed)
  | .literal _ => .error (.malformedInstruction .shapeNotAllowed)

/-- A two-token word with operand n, format D (R50, R55); INP's literal lies in 0..2047 (R56). -/
def decodeDirect (n : Int) : Shape → Except DecodeError Instr
  | .address build => .ok (build .direct n)
  | .literal build => .ok (build n)
  | .bare _ => .error (.malformedInstruction .shapeNotAllowed)
  | .input =>
    if 0 ≤ n ∧ n ≤ Config.inputMax then .ok (.inp (some n)) else .error (.malformedInstruction .literalRange)

/-- A three-token word with operand n, format N (R50, R55). -/
def decodeIndirect (n : Int) : Shape → Except DecodeError Instr
  | .address build => .ok (build .indirect n)
  | .literal _ => .error (.malformedInstruction .shapeNotAllowed)
  | .bare _ => .error (.malformedInstruction .shapeNotAllowed)
  | .input => .error (.malformedInstruction .shapeNotAllowed)

/-- The operand token (R54). -/
def decodeOperand (t : Text) : Except DecodeError Int :=
  match num t with
  | some n => .ok n
  | none => .error (.malformedInstruction .badOperand)

/-- `decode(w)` of R58, its checks in that rule's order: token count, mnemonic, marker, operand, shape, literal
range. It is total: a word of no token, which R51 says is never decoded, is a wrong token count (log 10, DESIGN
CHOICE). -/
def decode (w : Text) : Except DecodeError Instr :=
  match tokens w with
  | [m] =>
    match lookup m with
    | none => .error (.unknownMnemonic m)
    | some shape => decodeBare shape
  | [m, x] =>
    match lookup m with
    | none => .error (.unknownMnemonic m)
    | some shape =>
      match decodeOperand x with
      | .error e => .error e
      | .ok n => decodeDirect n shape
  | [m, marker, x] =>
    match lookup m with
    | none => .error (.unknownMnemonic m)
    | some shape =>
      if marker ≠ ['I'] then .error (.malformedInstruction .badMarker)
      else
        match decodeOperand x with
        | .error e => .error e
        | .ok n => decodeIndirect n shape
  | _ => .error (.malformedInstruction .tokenCount)

/-- The address operand of the 14 address mnemonics, none for every other instruction: `OPERAND_KIND = Address`
(R55, R77). -/
def Instr.address? (i : Instr) : Option (AddrMode × Int) :=
  match i with
  | .lda m a => some (m, a)
  | .str m a => some (m, a)
  | .jmp m a => some (m, a)
  | .jze m a => some (m, a)
  | .jsa m a => some (m, a)
  | .and m a => some (m, a)
  | .or m a => some (m, a)
  | .xor m a => some (m, a)
  | .add m a => some (m, a)
  | .sub m a => some (m, a)
  | .mul m a => some (m, a)
  | .div m a => some (m, a)
  | .inc m a => some (m, a)
  | .dec m a => some (m, a)
  | .cmp _ | .clr | .cre | .cta | .cte | .skz | .ina | .skp | .skn | .cla | .cra | .hal => none
  | .inp _ | .out | .sfi | .sfo | .put | .opt | .spi | .spo | .sie => none

/-! ## The encoder (R63) -/

/-- The tokens of an address instruction: `MN a` or `MN I a` (R50, R63). -/
def spellAddress (name : Text) (m : AddrMode) (a : Int) : List Text :=
  match m with
  | .direct => [name, litInt a]
  | .indirect => [name, ['I'], litInt a]

/-- The tokens of an instruction's canonical spelling, written from the rows of R55 (R63). -/
def spell (i : Instr) : List Text :=
  match i with
  | .lda m a => spellAddress ['L', 'D', 'A'] m a
  | .str m a => spellAddress ['S', 'T', 'R'] m a
  | .jmp m a => spellAddress ['J', 'M', 'P'] m a
  | .jze m a => spellAddress ['J', 'Z', 'E'] m a
  | .jsa m a => spellAddress ['J', 'S', 'A'] m a
  | .and m a => spellAddress ['A', 'N', 'D'] m a
  | .or m a => spellAddress ['O', 'R'] m a
  | .xor m a => spellAddress ['X', 'O', 'R'] m a
  | .add m a => spellAddress ['A', 'D', 'D'] m a
  | .sub m a => spellAddress ['S', 'U', 'B'] m a
  | .mul m a => spellAddress ['M', 'U', 'L'] m a
  | .div m a => spellAddress ['D', 'I', 'V'] m a
  | .inc m a => spellAddress ['I', 'N', 'C'] m a
  | .dec m a => spellAddress ['D', 'E', 'C'] m a
  | .cmp n => [['C', 'M', 'P'], litInt n]
  | .clr => [['C', 'L', 'R']]
  | .cre => [['C', 'R', 'E']]
  | .cta => [['C', 'T', 'A']]
  | .cte => [['C', 'T', 'E']]
  | .skz => [['S', 'K', 'Z']]
  | .ina => [['I', 'N', 'A']]
  | .skp => [['S', 'K', 'P']]
  | .skn => [['S', 'K', 'N']]
  | .cla => [['C', 'L', 'A']]
  | .cra => [['C', 'R', 'A']]
  | .hal => [['H', 'A', 'L']]
  | .inp (some n) => [['I', 'N', 'P'], litInt n]
  | .inp none => [['I', 'N', 'P']]
  | .out => [['O', 'U', 'T']]
  | .sfi => [['S', 'F', 'I']]
  | .sfo => [['S', 'F', 'O']]
  | .put => [['P', 'U', 'T']]
  | .opt => [['O', 'P', 'T']]
  | .spi => [['S', 'P', 'I']]
  | .spo => [['S', 'P', 'O']]
  | .sie => [['S', 'I', 'E']]

/-- Tokens joined by one space (R63). -/
def join : List Text → Text
  | [] => []
  | [t] => t
  | t :: u :: ts => t ++ ' ' :: join (u :: ts)

/-- The canonical word of an instruction (R63). -/
def encode (i : Instr) : Text := join (spell i)

/-! ## Words given as numbers

The spec defines no bit pattern for a word (R46). Where a word is given as a number, the model reads its bytes as
ASCII characters, the first character in bits 7..0, and the text ends at a zero byte or after the last whole byte
(log 7, DESIGN CHOICE). -/

/-- The text that at most `n` bytes of a number spell. -/
def textOfBytes : Nat → Nat → Text
  | 0, _ => []
  | n + 1, w => if w % 256 = 0 then [] else Char.ofNat (w % 256) :: textOfBytes n (w / 256)

/-- The text that the low `nbits` bits of a number spell. -/
def textOfBits (nbits w : Nat) : Text := textOfBytes (nbits / 8) w

/-- What the decoder reads from a word given as a number; data and empty words are never decoded (R59). -/
def decodeTableWord (nbits w : Nat) : Option Instr :=
  match classify (textOfBits nbits w) with
  | .instr =>
    match decode (textOfBits nbits w) with
    | .ok i => some i
    | .error _ => none
  | .empty => none
  | .data _ => none

end Sys2Proof
end

