-- ==== Sys2Proof/Machine/State.lean ====
section
/-! DEFINITION. The state of the CORE (10_state.md) as plain data, the error record (R25, R140), the host's turns and
what they return (40_instruction_cycle.md), and the state after reset (R154, R155). -/

namespace Sys2Proof.Machine

/-- The engine mode (R24). -/
inductive Mode where
  | idle
  | running
  | halted
  | stopped
deriving DecidableEq, Repr

/-- The kind of an error with the `info` its record holds (R25, R140). -/
inductive ErrorKind where
  /-- UnknownMnemonic with the rejected token, MalformedInstruction with its reason (R141, R142). -/
  | decode (e : DecodeError)
  /-- OutOfRange with the bad address (R144). -/
  | outOfRange (address : Int)
  /-- DivisionByZero (R146). -/
  | divisionByZero
  /-- NonNumericWord with the address read (R145). -/
  | nonNumericWord (address : Addr)
deriving DecidableEq, Repr

/-- The error record (R25): PC of the failing step, the fetched word (none where the fetch was out of range), the
kind with its info. -/
structure ErrorRecord where
  address : Nat
  word : Option Text
  kind : ErrorKind
deriving DecidableEq, Repr

/-- One listed word of the Word Store: its address and its text. -/
abbrev Cell := Nat × Text

/-- The Word Store (R22): the non-empty words in rising order of address; an unlisted address holds the empty word,
which is every word's reset value (R154). The unit is the text word, since the Word Store has no bytes (R34, log 1). -/
abbrev Memory := List Cell

/-- The host operations of the external interface (R4, R84, R92, R93). -/
inductive HostOp where
  | run
  | step
  | stop
  | load (words : List Text)
  | reset
  | dump
  | registers
deriving DecidableEq, Repr

/-- What happens at one suspension point: a host operation, or the engine's turn (R86; the list of turns is log 3,
DESIGN CHOICE). -/
inductive Turn where
  | host (op : HostOp)
  | engine
deriving DecidableEq, Repr

/-- What `registers()` returns (R30, R93). -/
structure Registers where
  ac : Value
  pc : Nat
  ar : Addr
  e : BitVec 1
  ir : Text
deriving DecidableEq, Repr

/-- What a host operation returns to the host (log 4, DESIGN CHOICE on the moments the spec leaves open). -/
inductive HostReply where
  /-- The final mode and the error record, at the end of `run()` or `step()` (R93, R148). -/
  | report (mode : Mode) (error : Option ErrorRecord)
  /-- `load()` of more than 32 words failed (R91). -/
  | loadFailed
  /-- The 32 words of `dump()` (R92). -/
  | words (ws : List Text)
  /-- The snapshot of `registers()` (R93). -/
  | registers (r : Registers)
deriving DecidableEq, Repr

/-- Why the machine stops without a next state: never. Every error of the spec has its entry described (R143) and is
taken as a next state, so no meaning raises a fault; the type has no constructor, and that is safe (log 8). -/
inductive Fault where
deriving DecidableEq, Repr

/-- Why the model has no meaning for an instruction. -/
inductive Refusal where
  /-- Raised by an arm of exec whose instruction has no meaning yet; safe. No arm raises it in this model. -/
  | notModelled (mnemonic : String)
deriving DecidableEq, Repr

/-- The state of the machine. -/
structure State where
  /-- AC, the accumulator (R14). -/
  ac : Value
  /-- PC, a natural number, not wrapped at the end of the Word Store (R16). -/
  pc : Nat
  /-- AR, an address 0..31 (R18). -/
  ar : Addr
  /-- IR, the word as stored (R19). -/
  ir : Text
  /-- E, the overflow/extend flag (R20). -/
  e : BitVec 1
  /-- The Word Store (R22). -/
  mem : Memory
  /-- The engine mode (R24). -/
  mode : Mode
  /-- The error record (R25). -/
  lastError : Option ErrorRecord
  /-- The values passed to `on_output`, oldest first (R28). -/
  outLog : List Value
  /-- The model's own: how many answers `on_input_request` has given (log 2). -/
  inputCount : Nat
  /-- The model's own: the turns at the coming suspension points, the next one first (log 3). -/
  pending : List Turn
  /-- The model's own: what host operations have returned, oldest first (log 4). -/
  replies : List HostReply
deriving DecidableEq, Repr

/-- A step's answer. -/
abbrev Result := Host.Outcome State Fault Refusal

/-- The state at power-on, which is the reset state with an empty output log (R154, R155); the three fields of the
model's own start at 0 and empty (log 2, log 3, log 4, DESIGN CHOICE). -/
def State.reset : State where
  ac := 0
  pc := 0
  ar := 0
  ir := []
  e := 0
  mem := []
  mode := .idle
  lastError := none
  outLog := []
  inputCount := 0
  pending := []
  replies := []

end Sys2Proof.Machine
end

