-- ==== Sys2Proof/Machine/Ops.lean ====
section
/-! DEFINITION. The named operations over the Word Store and the registers (20_memory.md), fetching (R73, R74), and
taking an error (R143). -/

namespace Sys2Proof.Machine

/-- `u16(v)`: the Euclidean remainder of an integer by 65536, as a 16-bit value (R8). -/
def u16 (v : Int) : Value := BitVec.ofInt 16 v

/-! ## The Word Store (R22, R33) -/

/-- `MemRead(a, 1)`: the word at an address, empty where no word is listed (R22, R33). -/
def Memory.read (m : Memory) (a : Nat) : Text :=
  match m with
  | [] => []
  | c :: cs => if c.1 = a then c.2 else Memory.read cs a

/-- A cell put in its place by rising address. -/
def Memory.insert (m : Memory) (a : Nat) (w : Text) : Memory :=
  match m with
  | [] => [(a, w)]
  | c :: cs => if a < c.1 then (a, w) :: c :: cs else c :: Memory.insert cs a w

/-- The store with the word at an address emptied. -/
def Memory.erase (m : Memory) (a : Nat) : Memory := m.filter fun c => decide (c.1 ≠ a)

/-- `MemWrite(a, 1, w)`: the word at `a` replaced by `w`, no other word changed (R33). An empty word is not listed. -/
def Memory.write (m : Memory) (a : Nat) (w : Text) : Memory :=
  if w.isEmpty then m.erase a else (m.erase a).insert a w

/-- Addresses rise strictly from a lower bound. -/
def Memory.risingFrom (lo : Nat) : Memory → Bool
  | [] => true
  | c :: cs => decide (lo ≤ c.1) && Memory.risingFrom (c.1 + 1) cs

/-- The canonical form: addresses strictly rising and below 32, no listed word empty. -/
def Memory.wf (m : Memory) : Bool :=
  m.risingFrom 0 && m.all fun c => decide (c.1 < Config.memWords) && !c.2.isEmpty

/-- The words of a sequence at the addresses from `a` on (R91). -/
def Memory.ofWords (a : Nat) : List Text → Memory
  | [] => []
  | w :: ws => if w.isEmpty then Memory.ofWords (a + 1) ws else (a, w) :: Memory.ofWords (a + 1) ws

/-- The 32 words in address order (R92). -/
def Memory.words (m : Memory) : List Text := (List.range Config.memWords).map fun a => m.read a

/-- The check of R32: an integer in 0..31 is an address, every other one is invalid. -/
def checkAddr (v : Int) : Option Addr :=
  if h : 0 ≤ v ∧ v ≤ 31 then some ⟨v.toNat, by omega⟩ else none

/-! ## Committing a step, and taking an error -/

/-- The writes every step makes that raises no error: AR, IR and PC (R17, R18, R19, R21, R81). -/
def State.commit (s : State) (ar : Addr) (ir : Text) (pc : Nat) : State := { s with ar := ar, ir := ir, pc := pc }

/-- What an error does (R143): none of the step's writes is committed, the mode becomes Stopped, and the record holds
PC, the fetched word and the kind. -/
def State.raise (s : State) (word : Option Text) (kind : ErrorKind) : State :=
  { s with mode := .stopped, lastError := some { address := s.pc, word := word, kind := kind } }

/-- The number of an error kind (R140). It is a label: a function of the kind, held by no register. -/
def ErrorKind.code (kind : ErrorKind) : Nat :=
  match kind with
  | .decode (.unknownMnemonic _) => 1
  | .decode (.malformedInstruction _) => 2
  | .outOfRange _ => 3
  | .divisionByZero => 4
  | .nonNumericWord _ => 5

/-- Re-entry after an error, the nearest thing to a return from one (R149): `run()` and `step()` clear the record
(R25, R85, R87), and the failing word is fetched again since PC still holds its address. -/
def State.clearError (s : State) : State := { s with lastError := none }

/-- The fetch (R73, R74): PC beyond 31 raises OutOfRange with no word; otherwise the step goes on with the fetch
address and the word there. -/
def withFetch (s : State) (next : Addr → Text → Result) : Result :=
  match checkAddr s.pc with
  | none => .next (s.raise none (.outOfRange s.pc))
  | some a => next a (s.mem.read a)

end Sys2Proof.Machine
end

