-- ==== Sys2Proof/Machine/Flags.lean ====
section
/-! DEFINITION. The flag E and the conditions on AC: unsigned overflow (R20, R110, R123), sign and zero (R15), and the
PC of a skip instruction (R17, R80). -/

namespace Sys2Proof.Machine

/-- E after an addition with this unreduced sum: set beyond 65535, otherwise kept (R20). -/
def overflowE (sum : Nat) (e : BitVec 1) : BitVec 1 := if sum > 65535 then 1 else e

/-- AC = 0 over all 16 bits (R15). -/
def isZero (ac : Value) : Bool := ac == 0

/-- AC is negative: bit 15 is 1 (R15). -/
def isNegative (ac : Value) : Bool := ac.getLsbD 15

/-- AC is positive: bit 15 is 0 and AC is not zero (R15). -/
def isPositive (ac : Value) : Bool := !ac.getLsbD 15 && !(ac == 0)

/-- PC after a skip instruction at `pc`: PC + 2 where the condition holds, PC + 1 otherwise (R17, R80). -/
def skipPc (taken : Bool) (pc : Nat) : Nat := if taken then pc + 2 else pc + 1

end Sys2Proof.Machine
end

