-- ==== Sys2Proof/Machine/IoReference.lean ====
section
/-! DEFINITION. The nine I/O-reference instructions (43_io_reference.md). -/

namespace Sys2Proof.Machine

/-- `draw In()` (R10, R28, R129): the next answer of the host, 0..2047, a free value (log 2). -/
def drawIn (s : State) : Nat := (Config.inputOracle s.inputCount).val

/-- INP (R130): a literal, or an answer of the host, is added to AC; E unchanged. A literal outside 0..2047 is no
decoded instruction (R56, log 10). -/
def execInp (n : Option Int) (s : State) : Result :=
  withFetch s fun a w =>
    match n with
    | some x => .next { s.commit a w (s.pc + 1) with ac := u16 ((s.ac.toNat : Int) + x) }
    | none =>
      .next { s.commit a w (s.pc + 1) with
        ac := u16 ((s.ac.toNat : Int) + drawIn s)
        inputCount := s.inputCount + 1 }

/-- OUT (R131): `emit Out(AC)` appends AC to the output log. -/
def execOut (s : State) : Result :=
  withFetch s fun a w => .next { s.commit a w (s.pc + 1) with outLog := s.outLog ++ [s.ac] }

/-- The no-op advance of the handshake mnemonics; what the collaborator does is outside the CORE (R129, log 12). -/
def advance (s : State) : Result := withFetch s fun a w => .next (s.commit a w (s.pc + 1))

/-- SFI (R132). -/
def execSfi (s : State) : Result := advance s

/-- SFO (R133). -/
def execSfo (s : State) : Result := advance s

/-- PUT (R134). -/
def execPut (s : State) : Result := advance s

/-- OPT (R135). -/
def execOpt (s : State) : Result := advance s

/-- SPI (R136). -/
def execSpi (s : State) : Result := advance s

/-- SPO (R137). -/
def execSpo (s : State) : Result := advance s

/-- SIE (R138): it enables nothing (R150). -/
def execSie (s : State) : Result := advance s

end Sys2Proof.Machine
end

