-- ==== Sys2Proof/Machine/Operands.lean ====
section
/-! DEFINITION. Every operand form: address resolution, direct and indirect (R77, R37), the memory operand (R36), and
the write of a memory result (R38). -/

namespace Sys2Proof.Machine

/-- `PointerRead(p)` (R37): the raw value of a data word, checked as an address. -/
def pointerRead (m : Memory) (p : Addr) : Except ErrorKind Addr :=
  match classify (m.read p) with
  | .empty => .error (.nonNumericWord p)
  | .instr => .error (.nonNumericWord p)
  | .data v =>
    match checkAddr v with
    | none => .error (.outOfRange v)
    | some ea => .ok ea

/-- `resolve(d, a)` of R77 for an address operand: one level of indirection at most. -/
def resolve (m : Memory) (mode : AddrMode) (operand : Int) : Except ErrorKind Addr :=
  match checkAddr operand with
  | none => .error (.outOfRange operand)
  | some p =>
    match mode with
    | .direct => .ok p
    | .indirect => pointerRead m p

/-- `DataRead(a)` (R36): the value of a data word, reduced by u16. -/
def dataRead (m : Memory) (a : Addr) : Except ErrorKind Value :=
  match classify (m.read a) with
  | .empty => .error (.nonNumericWord a)
  | .instr => .error (.nonNumericWord a)
  | .data v => .ok (u16 v)

/-- `DataWrite(a, n)` (R38): the canonical decimal text of n. -/
def dataWrite (m : Memory) (a : Addr) (n : Nat) : Memory := m.write a (lit n)

/-- Fetch and address resolution (R77, R78): the handler goes on with the fetched word and the effective address;
a resolution error is taken. -/
def withAddress (mode : AddrMode) (operand : Int) (s : State) (next : Text → Addr → Result) : Result :=
  withFetch s fun _ w =>
    match resolve s.mem mode operand with
    | .error kind => .next (s.raise (some w) kind)
    | .ok ea => next w ea

/-- Fetch, address resolution and the read of the operand (R79, R82): a NonNumericWord of the read is taken. -/
def withOperand (mode : AddrMode) (operand : Int) (s : State) (next : Text → Addr → Value → Result) : Result :=
  withAddress mode operand s fun w ea =>
    match dataRead s.mem ea with
    | .error kind => .next (s.raise (some w) kind)
    | .ok v => next w ea v

end Sys2Proof.Machine
end

