-- ==== Sys2Proof/Machine/MemoryReference.lean ====
section
/-! DEFINITION. The fifteen memory-reference instructions (41_memory_reference.md). -/

namespace Sys2Proof.Machine

/-- LDA (R102). -/
def execLda (m : AddrMode) (a : Int) (s : State) : Result :=
  withOperand m a s fun w ea v => .next { s.commit ea w (s.pc + 1) with ac := v }

/-- STR (R103): the old contents are not read. -/
def execStr (m : AddrMode) (a : Int) (s : State) : Result :=
  withAddress m a s fun w ea => .next { s.commit ea w (s.pc + 1) with mem := dataWrite s.mem ea s.ac.toNat }

/-- JMP (R104). -/
def execJmp (m : AddrMode) (a : Int) (s : State) : Result :=
  withAddress m a s fun w ea => .next (s.commit ea w ea)

/-- JZE (R105): the address is resolved whether or not the jump is taken (R78). -/
def execJze (m : AddrMode) (a : Int) (s : State) : Result :=
  withAddress m a s fun w ea => .next (s.commit ea w (if isZero s.ac then ea else s.pc + 1))

/-- JSA (R106): the return address PC + 1 is written at the effective address, which is also the next PC. -/
def execJsa (m : AddrMode) (a : Int) (s : State) : Result :=
  withAddress m a s fun w ea => .next { s.commit ea w ea with mem := dataWrite s.mem ea (s.pc + 1) }

/-- AND (R107). -/
def execAnd (m : AddrMode) (a : Int) (s : State) : Result :=
  withOperand m a s fun w ea v => .next { s.commit ea w (s.pc + 1) with ac := s.ac &&& v }

/-- OR (R108). -/
def execOr (m : AddrMode) (a : Int) (s : State) : Result :=
  withOperand m a s fun w ea v => .next { s.commit ea w (s.pc + 1) with ac := s.ac ||| v }

/-- XOR (R109). -/
def execXor (m : AddrMode) (a : Int) (s : State) : Result :=
  withOperand m a s fun w ea v => .next { s.commit ea w (s.pc + 1) with ac := s.ac ^^^ v }

/-- ADD (R110): E is set beyond 65535 and otherwise kept. -/
def execAdd (m : AddrMode) (a : Int) (s : State) : Result :=
  withOperand m a s fun w ea v =>
    .next { s.commit ea w (s.pc + 1) with
      ac := u16 ((s.ac.toNat : Int) + v.toNat)
      e := overflowE (s.ac.toNat + v.toNat) s.e }

/-- SUB (R111): wraps modulo 65536, E unchanged. -/
def execSub (m : AddrMode) (a : Int) (s : State) : Result :=
  withOperand m a s fun w ea v =>
    .next { s.commit ea w (s.pc + 1) with ac := u16 ((s.ac.toNat : Int) - v.toNat) }

/-- MUL (R112): the low 16 bits of the product; E is set on every MUL. -/
def execMul (m : AddrMode) (a : Int) (s : State) : Result :=
  withOperand m a s fun w ea v =>
    .next { s.commit ea w (s.pc + 1) with ac := u16 ((s.ac.toNat : Int) * v.toNat), e := 1 }

/-- DIV (R113): a zero operand raises DivisionByZero (R146), otherwise the unsigned quotient. -/
def execDiv (m : AddrMode) (a : Int) (s : State) : Result :=
  withOperand m a s fun w ea v =>
    if v.toNat = 0 then .next (s.raise (some w) .divisionByZero)
    else .next { s.commit ea w (s.pc + 1) with ac := u16 ((s.ac.toNat / v.toNat : Nat) : Int) }

/-- A value written to the accumulator and to the operand's cell, the next word skipped where it is zero: what INC
and DEC share (R114, R115). -/
def writeBack (s : State) (w : Text) (ea : Addr) (r : Value) : State :=
  { s.commit ea w (skipPc (isZero r) s.pc) with ac := r, mem := dataWrite s.mem ea r.toNat }

/-- INC (R114). -/
def execInc (m : AddrMode) (a : Int) (s : State) : Result :=
  withOperand m a s fun w ea v => .next (writeBack s w ea (u16 ((v.toNat : Int) + 1)))

/-- DEC (R115). -/
def execDec (m : AddrMode) (a : Int) (s : State) : Result :=
  withOperand m a s fun w ea v => .next (writeBack s w ea (u16 ((v.toNat : Int) - 1)))

/-- CMP (R116): no architectural effect; the literal is neither resolved nor checked, and the relation the source
logs is no state (log 12). -/
def execCmp (_n : Int) (s : State) : Result :=
  withFetch s fun a w => .next (s.commit a w (s.pc + 1))

end Sys2Proof.Machine
end

