-- ==== Sys2Proof/Machine/RegisterReference.lean ====
section
/-! DEFINITION. The eleven register-reference instructions (42_register_reference.md). -/

namespace Sys2Proof.Machine

/-- CLR (R118). -/
def execClr (s : State) : Result :=
  withFetch s fun a w => .next { s.commit a w (s.pc + 1) with ac := 0 }

/-- CRE (R119). -/
def execCre (s : State) : Result :=
  withFetch s fun a w => .next { s.commit a w (s.pc + 1) with e := 0 }

/-- CTA (R120): AC ^ 0xFFFF. -/
def execCta (s : State) : Result :=
  withFetch s fun a w => .next { s.commit a w (s.pc + 1) with ac := s.ac ^^^ 0xFFFF }

/-- CTE (R121): (E ^ 1) & 1, which is 1 - E. -/
def execCte (s : State) : Result :=
  withFetch s fun a w => .next { s.commit a w (s.pc + 1) with e := s.e ^^^ 1 }

/-- SKZ (R122). -/
def execSkz (s : State) : Result :=
  withFetch s fun a w => .next (s.commit a w (skipPc (isZero s.ac) s.pc))

/-- INA (R123): overflow as ADD. -/
def execIna (s : State) : Result :=
  withFetch s fun a w =>
    .next { s.commit a w (s.pc + 1) with
      ac := u16 ((s.ac.toNat : Int) + 1)
      e := overflowE (s.ac.toNat + 1) s.e }

/-- SKP (R124). -/
def execSkp (s : State) : Result :=
  withFetch s fun a w => .next (s.commit a w (skipPc (isPositive s.ac) s.pc))

/-- SKN (R125). -/
def execSkn (s : State) : Result :=
  withFetch s fun a w => .next (s.commit a w (skipPc (isNegative s.ac) s.pc))

/-- CLA (R126): a left rotation within AC's 16 bits. -/
def execCla (s : State) : Result :=
  withFetch s fun a w => .next { s.commit a w (s.pc + 1) with ac := (s.ac <<< 1) ||| (s.ac >>> 15) }

/-- CRA (R127): a right rotation within AC's 16 bits. -/
def execCra (s : State) : Result :=
  withFetch s fun a w => .next { s.commit a w (s.pc + 1) with ac := (s.ac >>> 1) ||| (s.ac <<< 15) }

/-- HAL (R128): PC is not incremented. -/
def execHal (s : State) : Result :=
  withFetch s fun a w => .next { s.commit a w s.pc with mode := .halted }

end Sys2Proof.Machine
end

