-- ==== Sys2Proof/Machine/Dispatch.lean ====
section
/-! DEFINITION. The dispatch to one handler per mnemonic (R79): the meaning of every instruction. -/

namespace Sys2Proof.Machine

def exec (i : Instr) (s : State) : Host.Outcome State Fault Refusal :=
  match i with
  | .lda m a => Sys2Proof.Machine.execLda m a s
  | .str m a => Sys2Proof.Machine.execStr m a s
  | .jmp m a => Sys2Proof.Machine.execJmp m a s
  | .jze m a => Sys2Proof.Machine.execJze m a s
  | .jsa m a => Sys2Proof.Machine.execJsa m a s
  | .and m a => Sys2Proof.Machine.execAnd m a s
  | .or m a => Sys2Proof.Machine.execOr m a s
  | .xor m a => Sys2Proof.Machine.execXor m a s
  | .add m a => Sys2Proof.Machine.execAdd m a s
  | .sub m a => Sys2Proof.Machine.execSub m a s
  | .mul m a => Sys2Proof.Machine.execMul m a s
  | .div m a => Sys2Proof.Machine.execDiv m a s
  | .inc m a => Sys2Proof.Machine.execInc m a s
  | .dec m a => Sys2Proof.Machine.execDec m a s
  | .cmp n => Sys2Proof.Machine.execCmp n s
  | .clr => Sys2Proof.Machine.execClr s
  | .cre => Sys2Proof.Machine.execCre s
  | .cta => Sys2Proof.Machine.execCta s
  | .cte => Sys2Proof.Machine.execCte s
  | .skz => Sys2Proof.Machine.execSkz s
  | .ina => Sys2Proof.Machine.execIna s
  | .skp => Sys2Proof.Machine.execSkp s
  | .skn => Sys2Proof.Machine.execSkn s
  | .cla => Sys2Proof.Machine.execCla s
  | .cra => Sys2Proof.Machine.execCra s
  | .hal => Sys2Proof.Machine.execHal s
  | .inp n => Sys2Proof.Machine.execInp n s
  | .out => Sys2Proof.Machine.execOut s
  | .sfi => Sys2Proof.Machine.execSfi s
  | .sfo => Sys2Proof.Machine.execSfo s
  | .put => Sys2Proof.Machine.execPut s
  | .opt => Sys2Proof.Machine.execOpt s
  | .spi => Sys2Proof.Machine.execSpi s
  | .spo => Sys2Proof.Machine.execSpo s
  | .sie => Sys2Proof.Machine.execSie s

end Sys2Proof.Machine
end

