-- ==== Sys2Proof/Machine/Engine.lean ====
section
/-! DEFINITION. One step of the Execution Engine (R71 to R82), the host operations with the engine lifecycle (R84 to
R93, R153), and the turn that a suspension point takes (R86). -/

namespace Sys2Proof.Machine

/-! ## One engine step -/

/-- One step of the engine (R71): fetch (R73, R74), skip of an empty or data word (R75), decode (R76), then the
handler with its address resolution (R77, R79). -/
def engineStep (s : State) : Result :=
  withFetch s fun a w =>
    match classify w with
    | .empty => .next (s.commit a w (s.pc + 1))
    | .data _ => .next (s.commit a w (s.pc + 1))
    | .instr =>
      match decode w with
      | .error e => .next (s.raise (some w) (.decode e))
      | .ok i => exec i s

/-! ## Host operations (R84) -/

/-- A change made to a next state; a fault or a refusal stays. -/
def onNext (r : Result) (f : State → State) : Result :=
  match r with
  | .next s => .next (f s)
  | .fault x => .fault x
  | .refused x => .refused x

/-- A reply to the host. -/
def State.reply (s : State) (r : HostReply) : State := { s with replies := s.replies ++ [r] }

/-- The result of `run()` or `step()`: the mode and the error record (R93, R148). -/
def State.report (s : State) : State := s.reply (.report s.mode s.lastError)

/-- `run()` (R85): from Idle and Stopped to Running with the error record cleared; in Running and Halted it changes
nothing (R88, R89) and returns at once (log 4, DESIGN CHOICE). -/
def hostRun (s : State) : Result :=
  match s.mode with
  | .idle => .next { s.clearError with mode := .running }
  | .stopped => .next { s.clearError with mode := .running }
  | .running => .next s.report
  | .halted => .next s.report

/-- `step()` (R87): in Idle and Stopped the error record is cleared, exactly one step runs and its result is
returned; in Running and Halted it changes nothing (R88, R89) and returns at once (log 4, DESIGN CHOICE). -/
def hostStep (s : State) : Result :=
  match s.mode with
  | .idle => onNext (engineStep s.clearError) State.report
  | .stopped => onNext (engineStep s.clearError) State.report
  | .running => .next s.report
  | .halted => .next s.report

/-- `stop()` (R90): Running becomes Stopped; in every other mode it changes nothing. -/
def hostStop (s : State) : Result :=
  match s.mode with
  | .running => .next { s with mode := .stopped }
  | .idle => .next s
  | .halted => .next s
  | .stopped => .next s

/-- `load(words)` (R91): the Word Store replaced, mode Idle, the error record cleared, everything else kept; more
than 32 words change nothing and the host is told. -/
def hostLoad (words : List Text) (s : State) : Result :=
  if words.length ≤ Config.memWords then
    .next { s.clearError with mem := Memory.ofWords 0 words, mode := .idle }
  else .next (s.reply .loadFailed)

/-- `reset()` (R153): the reset state, but for the output log, the count of answers drawn and the host's own turns
and replies, which it keeps (log 2, log 3, log 4). -/
def hostReset (s : State) : Result :=
  .next { State.reset with
    outLog := s.outLog, inputCount := s.inputCount, pending := s.pending, replies := s.replies }

/-- `registers()` returns the five registers (R93). -/
def State.registers (s : State) : Registers := { ac := s.ac, pc := s.pc, ar := s.ar, e := s.e, ir := s.ir }

/-- One host operation at a suspension point (R84, R92, R93, R94). -/
def hostTurn (op : HostOp) (s : State) : Result :=
  match op with
  | .run => hostRun s
  | .step => hostStep s
  | .stop => hostStop s
  | .load words => hostLoad words s
  | .reset => hostReset s
  | .dump => .next (s.reply (.words s.mem.words))
  | .registers => .next (s.reply (.registers s.registers))

/-! ## Suspension points -/

/-- The engine's turn: one step in Running, none in the other modes (R72, R84). -/
def engineTurn (s : State) : Result :=
  match s.mode with
  | .running => engineStep s
  | .idle => .next s
  | .halted => .next s
  | .stopped => .next s

/-- The end of a run (R95, R148): where a turn taken in Running leaves Running, `run()` returns its result. -/
def endRun (before : Mode) (t : State) : State :=
  if before = .running ∧ t.mode ≠ .running then t.report else t

/-- A turn at a suspension point. -/
def takeTurn (turn : Turn) (s : State) : Result :=
  match turn with
  | .engine => onNext (engineTurn s) (endRun s.mode)
  | .host op => onNext (hostTurn op s) (endRun s.mode)

/-- One step of the machine: the next turn of `pending`; with none left the host never acts again, and every turn is
the engine's (R86, R166). -/
def cycle (s : State) : Result :=
  match s.pending with
  | [] => takeTurn .engine s
  | turn :: rest => takeTurn turn { s with pending := rest }

/-! ## Placing an instruction -/

/-- The address the next fetch reads once a word is placed: PC, or 0 where PC lies beyond the Word Store. -/
def placeAddr (s : State) : Nat := if s.pc < Config.memWords then s.pc else 0

/-- A word stored where the next step fetches, with what the fetch needs: mode Running and no turn of the host before
it, as after `load` and `run()` (log 6). -/
def placeWord (s : State) (w : Text) : State :=
  { s.clearError with
    pc := placeAddr s, mem := s.mem.write (placeAddr s) w, mode := .running, pending := [] }

end Sys2Proof.Machine
end

