-- ==== Sys2Proof/Machine/Step.lean ====
section
/-! DEFINITION. One step of the machine, and the placing of an instruction where it is fetched next. -/

namespace Sys2Proof.Machine

/-- One step: the next turn at a suspension point (R86), an engine step in Running where the host does not act. -/
def step (s : State) : Host.Outcome State Fault Refusal := cycle s

/-- The word given as a number stored where the next step fetches (log 6, log 7). -/
def State.withFetchWord (s : State) (nbits w : Nat) : State := placeWord s (textOfBits nbits w)

end Sys2Proof.Machine
end

