-- ==== Sys2Proof/Safety.lean ====
section
/-! DEFINITION. The terms claims are made in: the invariant of the state, the outcome of a step (R83), the end of a
run (R95), what one step may change of the mode (R84), and which instructions write what (R21). -/

namespace Sys2Proof.Machine

/-- The invariant of every state a run reaches: the Word Store in its canonical form, PC at most 33 (R96), an error
record only in Stopped (R24, R25, R143). -/
def State.Inv (s : State) : Prop :=
  s.mem.wf = true ∧ s.pc ≤ 33 ∧ (s.lastError.isSome = true → s.mode = .stopped)

/-- The four outcomes of an engine step (R83). -/
inductive StepOutcome where
  | skipped
  | executed
  | halted
  | faulted (kind : ErrorKind)
deriving DecidableEq, Repr

/-- The outcome of the engine step that led from `s`, where no error is recorded, to `t` (R83). -/
def stepOutcome (s t : State) : StepOutcome :=
  match t.lastError with
  | some r => .faulted r.kind
  | none =>
    match classify (s.mem.read s.pc) with
    | .empty => .skipped
    | .data _ => .skipped
    | .instr => if t.mode = .halted then .halted else .executed

/-- The three ends of a run started by `run()` (R95): by HAL, by an error, by a host `stop()`. -/
inductive RunEnd where
  | halted
  | failed (r : ErrorRecord)
  | stopped
deriving DecidableEq, Repr

/-- How a run has ended in this state, none where it has not (R95). -/
def runEnd (s : State) : Option RunEnd :=
  match s.mode, s.lastError with
  | .halted, _ => some .halted
  | .stopped, some r => some (.failed r)
  | .stopped, none => some .stopped
  | .idle, _ => none
  | .running, _ => none

/-- The table of mode transitions (R84): the modes a turn may lead to from a mode. -/
def nextModes (turn : Turn) (m : Mode) : List Mode :=
  match turn, m with
  | .host .run, .idle => [.running]
  | .host .run, .stopped => [.running]
  | .host .run, .running => [.running]
  | .host .run, .halted => [.halted]
  | .host .step, .idle => [.idle, .halted, .stopped]
  | .host .step, .stopped => [.stopped, .halted]
  | .host .step, .running => [.running]
  | .host .step, .halted => [.halted]
  | .engine, .running => [.running, .halted, .stopped]
  | .engine, .idle => [.idle]
  | .engine, .halted => [.halted]
  | .engine, .stopped => [.stopped]
  | .host .stop, .running => [.stopped]
  | .host .stop, .idle => [.idle]
  | .host .stop, .halted => [.halted]
  | .host .stop, .stopped => [.stopped]
  | .host (.load ws), m => if ws.length ≤ Config.memWords then [.idle] else [m]
  | .host .reset, _ => [.idle]
  | .host .dump, m => [m]
  | .host .registers, m => [m]

/-- `k` steps of the machine, stopping at the first fault or refusal, as the host's interface runs a core. -/
def runFor : Nat → State → Result
  | 0, s => .next s
  | k + 1, s =>
    match step s with
    | .next t => runFor k t
    | .fault r => .fault r
    | .refused r => .refused r

/-- The instructions that write AC (R14, R21). -/
def writesAc (i : Instr) : Bool :=
  match i with
  | .lda _ _ | .and _ _ | .or _ _ | .xor _ _ | .add _ _ | .sub _ _ | .mul _ _ | .div _ _ | .inc _ _ | .dec _ _ => true
  | .clr | .cta | .ina | .cla | .cra | .inp _ => true
  | .str _ _ | .jmp _ _ | .jze _ _ | .jsa _ _ | .cmp _ | .cre | .cte | .skz | .skp | .skn | .hal => false
  | .out | .sfi | .sfo | .put | .opt | .spi | .spo | .sie => false

/-- The instructions that write E (R20, R21). -/
def writesE (i : Instr) : Bool :=
  match i with
  | .add _ _ | .mul _ _ | .cre | .cte | .ina => true
  | .lda _ _ | .str _ _ | .jmp _ _ | .jze _ _ | .jsa _ _ | .and _ _ | .or _ _ | .xor _ _ => false
  | .sub _ _ | .div _ _ | .inc _ _ | .dec _ _ | .cmp _ => false
  | .clr | .cta | .skz | .skp | .skn | .cla | .cra | .hal | .inp _ => false
  | .out | .sfi | .sfo | .put | .opt | .spi | .spo | .sie => false

/-- The instructions that write a word of the Word Store (R21, R23). -/
def writesMem (i : Instr) : Bool :=
  match i with
  | .str _ _ | .jsa _ _ | .inc _ _ | .dec _ _ => true
  | .lda _ _ | .jmp _ _ | .jze _ _ | .and _ _ | .or _ _ | .xor _ _ | .add _ _ | .sub _ _ | .mul _ _ | .div _ _ => false
  | .cmp _ | .clr | .cre | .cta | .cte | .skz | .ina | .skp | .skn | .cla | .cra | .hal | .inp _ => false
  | .out | .sfi | .sfo | .put | .opt | .spi | .spo | .sie => false

end Sys2Proof.Machine
end

