-- ==== Sys2Proof/Certificates/Slice0/Obligations.lean ====
section
/-! DEFINITION. The statements for the provers. Where a docstring says "the spec's own choice", the clause rests on a
decision D<n> of spec/92_eei_decisions.md (log 11) or on a log entry of the model, not on the source's words. -/

open Sys2Proof Sys2Proof.Machine

/-! ## Words, the decoder and the encoder -/

/-- R2: the mnemonics of the three classes, 15 + 11 + 9 = 35, no two alike, and a token outside them has no row. -/
def Obligations.OpcodeTableNamesThirtyFiveMnemonics : Prop :=
  memoryTable.map Prod.fst =
      ["LDA", "STR", "JMP", "JZE", "JSA", "AND", "OR", "XOR", "ADD", "SUB", "MUL", "DIV", "INC", "DEC", "CMP"].map
        String.toList ∧
    registerTable.map Prod.fst =
      ["CLR", "CRE", "CTA", "CTE", "SKZ", "INA", "SKP", "SKN", "CLA", "CRA", "HAL"].map String.toList ∧
    ioTable.map Prod.fst = ["INP", "OUT", "SFI", "SFO", "PUT", "OPT", "SPI", "SPO", "SIE"].map String.toList ∧
    opcodeTable = memoryTable ++ registerTable ++ ioTable ∧ opcodeTable.length = 35 ∧
    (opcodeTable.map Prod.fst).Nodup ∧ ∀ m, lookup m = none ↔ m ∉ opcodeTable.map Prod.fst

/-- The canonical word of every well-formed instruction is an instruction word and decodes to that instruction
(30_encoding.md, assembler syntax and the decoder; the spelling is the spec's own choice, D12). -/
def Obligations.DecodeOfEncodeIsIdentity : Prop :=
  ∀ i : Instr, i.wf = true → classify (encode i) = .instr ∧ decode (encode i) = .ok i

/-- Whatever word is decoded, the instruction is well formed: INP's literal lies in 0..2047 (the spec's own choice,
D6, D20). -/
def Obligations.DecodedInstructionsAreWellFormed : Prop :=
  ∀ (w : Text) (i : Instr), decode w = .ok i → i.wf = true

/-- ASCII whitespace before and after a word changes neither its class, nor its tokens, nor what it decodes to (the
spec's own choice, D12). -/
def Obligations.SurroundingWhitespaceIsIgnored : Prop :=
  ∀ before w after : Text,
    (∀ c ∈ before, c ∈ [' ', '\t', '\n', Char.ofNat 11, Char.ofNat 12, '\r']) →
    (∀ c ∈ after, c ∈ [' ', '\t', '\n', Char.ofNat 11, Char.ofNat 12, '\r']) →
    classify (before ++ w ++ after) = classify w ∧ tokens (before ++ w ++ after) = tokens w ∧
      decode (before ++ w ++ after) = decode w

/-- A text has a numeric value exactly where it is a run of decimal digits with an optional minus sign before it, that
is, where it matches the pattern of a number; and the sign negates the value (the spec's own choice, D8, D12). -/
def Obligations.NumberTextsAreSignedDigitRuns : Prop :=
  (∀ t : Text, (num t).isSome = true ↔
    ∃ ds : Text, ds ≠ [] ∧ (∀ c ∈ ds, '0' ≤ c ∧ c ≤ '9') ∧ (t = ds ∨ t = '-' :: ds)) ∧
  ∀ (ds : Text) (v : Int), (∀ c ∈ ds, '0' ≤ c ∧ c ≤ '9') → num ds = some v → num ('-' :: ds) = some (-v)

/-- The canonical text of a natural number is a data word of that value: digits only, no sign, and no leading zero but
in the text of 0 itself; zeros put before it do not change the value (the spec's own choice, D8, D12, D24). -/
def Obligations.CanonicalLiteralReadsBack : Prop :=
  ∀ n : Nat, classify (lit n) = .data (n : Int) ∧ (∀ c ∈ lit n, '0' ≤ c ∧ c ≤ '9') ∧
    ((lit n).head? = some '0' → n = 0 ∧ lit n = ['0']) ∧
    ∀ k : Nat, num (List.replicate k '0' ++ lit n) = some (n : Int)

/-- The three classes of a word and the value of a data word (the character sets are the spec's own choice, D8, D12). -/
def Obligations.WordClassIsDecidedByTrimAndNumber : Prop :=
  ∀ w : Text, (classify w = .empty ↔ trim w = []) ∧ (∀ v, classify w = .data v ↔ num (trim w) = some v) ∧
    (classify w = .instr ↔ trim w ≠ [] ∧ num (trim w) = none)

/-- The decoder's checks in their order: token count, mnemonic, marker, operand, shape, literal range (the order and
the shapes are the spec's own choice, D13, D14, D15, D20). -/
def Obligations.DecodeChecksInOrder : Prop :=
  ∀ (w m : Text) (rest : List Text), tokens w = m :: rest →
    (3 ≤ rest.length → decode w = .error (.malformedInstruction .tokenCount)) ∧
    (rest.length ≤ 2 → lookup m = none → decode w = .error (.unknownMnemonic m)) ∧
    (∀ k x, rest = [k, x] → lookup m ≠ none → k ≠ ['I'] → decode w = .error (.malformedInstruction .badMarker)) ∧
    (∀ x, rest = [x] ∨ rest = [['I'], x] → lookup m ≠ none → num x = none →
      decode w = .error (.malformedInstruction .badOperand)) ∧
    (∀ build, lookup m = some (.address build) →
      (rest = [] → decode w = .error (.malformedInstruction .shapeNotAllowed)) ∧
      (∀ x n, num x = some n → rest = [x] → decode w = .ok (build .direct n)) ∧
      ∀ x n, num x = some n → rest = [['I'], x] → decode w = .ok (build .indirect n)) ∧
    (∀ build, lookup m = some (.literal build) →
      (rest = [] → decode w = .error (.malformedInstruction .shapeNotAllowed)) ∧
      (∀ x n, num x = some n → rest = [x] → decode w = .ok (build n)) ∧
      ∀ x n, num x = some n → rest = [['I'], x] → decode w = .error (.malformedInstruction .shapeNotAllowed)) ∧
    (∀ i, lookup m = some (.bare i) →
      (rest = [] → decode w = .ok i) ∧
      ∀ x n, num x = some n → rest = [x] ∨ rest = [['I'], x] →
        decode w = .error (.malformedInstruction .shapeNotAllowed)) ∧
    (lookup m = some .input →
      (rest = [] → decode w = .ok (.inp none)) ∧
      (∀ x n, num x = some n → rest = [x] →
        (0 ≤ n ∧ n ≤ 2047 → decode w = .ok (.inp (some n))) ∧
        (¬(0 ≤ n ∧ n ≤ 2047) → decode w = .error (.malformedInstruction .literalRange))) ∧
      ∀ x n, num x = some n → rest = [['I'], x] → decode w = .error (.malformedInstruction .shapeNotAllowed))

/-- A few words of the spec's decode examples, one or more per class: five that decode to the instruction they stand
for, CMP's literal beyond 65535 among them, and `INP 2048`, which is refused. That INP's literal is bounded, and by 2047,
is the spec's own choice (D6, D20; log 11). -/
def Obligations.DecodeExamplesOfTheSpec : Prop :=
  decode ['L', 'D', 'A', ' ', '5'] = .ok (.lda .direct 5) ∧
    decode ['J', 'M', 'P', ' ', 'I', ' ', '9'] = .ok (.jmp .indirect 9) ∧
    decode ['H', 'A', 'L'] = .ok .hal ∧
    decode ['I', 'N', 'P', ' ', '2', '0', '4', '7'] = .ok (.inp (some 2047)) ∧
    decode ['I', 'N', 'P', ' ', '2', '0', '4', '8'] = .error (.malformedInstruction .literalRange) ∧
    decode ['C', 'M', 'P', ' ', '7', '0', '0', '0', '0'] = .ok (.cmp 70000)

/-! ## The Word Store and the operands -/

/-- A write replaces the word at its address by the written word and changes no other word
(20_memory.md, access unit). -/
def Obligations.MemWriteReplacesOneWord : Prop :=
  ∀ (m : Memory) (a b : Nat) (w : Text), (m.write a w).read b = if b = a then w else m.read b

/-- Address resolution: the range check of the operand, the direct address, and one level of indirection through a data
word whose raw value is checked (the spec's own choice, D6, D9, D11). -/
def Obligations.ResolutionGivesTheEffectiveAddress : Prop :=
  ∀ m : Memory,
    (∀ (mode : AddrMode) (v : Int), v < 0 ∨ 31 < v → resolve m mode v = .error (.outOfRange v)) ∧
    (∀ p : Addr, resolve m .direct (p.val : Int) = .ok p) ∧
    (∀ p ea : Addr, classify (m.read p) = .data (ea.val : Int) → resolve m .indirect (p.val : Int) = .ok ea) ∧
    (∀ (p : Addr) (v : Int), classify (m.read p) = .data v → v < 0 ∨ 31 < v →
      resolve m .indirect (p.val : Int) = .error (.outOfRange v)) ∧
    ∀ p : Addr, (∀ v, classify (m.read p) ≠ .data v) →
      resolve m .indirect (p.val : Int) = .error (.nonNumericWord p)

/-- The operand read: a data word's value modulo 65536, and NonNumericWord for an empty or an instruction word (the
spec's own choice, D9, D10). -/
def Obligations.OperandReadReducesModulo65536 : Prop :=
  ∀ (m : Memory) (a : Addr),
    (∀ v, classify (m.read a) = .data v → ∃ x, dataRead m a = .ok x ∧ (x.toNat : Int) = v % 65536) ∧
    ((∀ v, classify (m.read a) ≠ .data v) → dataRead m a = .error (.nonNumericWord a))

/-! ## Errors -/

/-- Each of the 14 address instructions takes its resolution error, JZE also where it would not jump: nothing is
committed, the mode becomes Stopped and the record is written (the spec's own choice, D17, D34). -/
def Obligations.AddressErrorsAreTaken : Prop :=
  ∀ (i : Instr) (m : AddrMode) (p : Int) (s : State) (e : ErrorKind),
    i.address? = some (m, p) → s.pc < 32 → resolve s.mem m p = .error e →
    exec i s = .next { s with
      mode := .stopped, lastError := some { address := s.pc, word := some (s.mem.read s.pc), kind := e } }

/-- The ten instructions that read an operand cell take NonNumericWord where it holds no data word (the spec's own
choice, D9, D17, D34). -/
def Obligations.NonNumericOperandIsTaken : Prop :=
  ∀ (i : Instr) (m : AddrMode) (p : Int) (s : State) (ea : Addr),
    i ∈ [.lda m p, .and m p, .or m p, .xor m p, .add m p, .sub m p, .mul m p, .div m p, .inc m p, .dec m p] →
    s.pc < 32 → resolve s.mem m p = .ok ea → (∀ v, classify (s.mem.read ea) ≠ .data v) →
    exec i s = .next { s with
      mode := .stopped
      lastError := some { address := s.pc, word := some (s.mem.read s.pc), kind := .nonNumericWord ea } }

/-- A fetch beyond the Word Store raises OutOfRange with no word, and an instruction word that does not decode raises
its decode error (the spec's own choice, D7, D17, D34). -/
def Obligations.FetchAndDecodeErrorsAreTaken : Prop :=
  ∀ s : State,
    (31 < s.pc → engineStep s = .next { s with
      mode := .stopped, lastError := some { address := s.pc, word := none, kind := .outOfRange s.pc } }) ∧
    ∀ e : DecodeError, s.pc < 32 → classify (s.mem.read s.pc) = .instr → decode (s.mem.read s.pc) = .error e →
      engineStep s = .next { s with
        mode := .stopped, lastError := some { address := s.pc, word := some (s.mem.read s.pc), kind := .decode e } }

/-- R141: UnknownMnemonic for an instruction word of 1 to 3 tokens whose first token is none of the 35 mnemonics, with
the fetch address, the word and the rejected token in the record. -/
def Obligations.UnknownMnemonicIsRecorded : Prop :=
  ∀ (s : State) (m : Text) (rest : List Text),
    s.pc < 32 → classify (s.mem.read s.pc) = .instr → tokens (s.mem.read s.pc) = m :: rest → rest.length ≤ 2 →
    m ∉ opcodeTable.map Prod.fst →
    ∃ t, engineStep s = .next t ∧
      t.lastError = some
        { address := s.pc, word := some (s.mem.read s.pc), kind := .decode (.unknownMnemonic m) }

/-- A step that raises an error of any kind commits none of its writes: only the mode and the record change (the
spec's own choice, D17, D34). -/
def Obligations.FailingStepCommitsNothing : Prop :=
  ∀ (s t : State) (r : ErrorRecord), s.lastError = none → engineStep s = .next t → t.lastError = some r →
    t = { s with mode := .stopped, lastError := some r } ∧ r.address = s.pc ∧
      r.word = if s.pc < 32 then some (s.mem.read s.pc) else none

/-- Which instruction can raise which error once it is decoded: DivisionByZero only DIV, NonNumericWord and (with PC in
the Word Store) OutOfRange only the address instructions, a decode error none; so the register-reference and the I/O
instructions and CMP raise nothing (40_instruction_cycle.md, errors by phase). -/
def Obligations.InstructionErrorsByKind : Prop :=
  ∀ (i : Instr) (s t : State) (r : ErrorRecord),
    s.pc < 32 → s.lastError = none → exec i s = .next t → t.lastError = some r →
    i.address?.isSome = true ∧ (r.kind = .divisionByZero → ∃ m p, i = .div m p) ∧ (∀ e, r.kind ≠ .decode e) ∧
      ∀ m p, i ∈ [.str m p, .jmp m p, .jze m p, .jsa m p] → resolve s.mem m p = .error r.kind

/-! ## The memory-reference instructions -/

/-- LDA: AC becomes the operand; E and the Word Store are kept, and PC advances (the spec's own choice in the operand
read, D9, D10). -/
def Obligations.LdaLoadsOperand : Prop :=
  ∀ (m : AddrMode) (p : Int) (s : State) (ea : Addr) (v : Value),
    s.pc < 32 → resolve s.mem m p = .ok ea → dataRead s.mem ea = .ok v →
    exec (.lda m p) s = .next { s with ac := v, ar := ea, ir := s.mem.read s.pc, pc := s.pc + 1 }

/-- STR: the word at the effective address becomes the canonical text of AC, whatever it held; no other word and no
register but AR, IR and PC changes (the stored spelling is the spec's own choice, D24). -/
def Obligations.StrStoresAccumulator : Prop :=
  ∀ (m : AddrMode) (p : Int) (s : State) (ea : Addr), s.pc < 32 → resolve s.mem m p = .ok ea →
    ∃ t, exec (.str m p) s = .next t ∧
      t = { s with mem := t.mem, ar := ea, ir := s.mem.read s.pc, pc := s.pc + 1 } ∧
      t.mem.read ea = lit s.ac.toNat ∧ ∀ b, b ≠ ea.val → t.mem.read b = s.mem.read b

/-- JMP: PC becomes the effective address, direct or indirect (the spec's own choice of PC policy, D2). -/
def Obligations.JmpSetsPc : Prop :=
  ∀ (m : AddrMode) (p : Int) (s : State) (ea : Addr), s.pc < 32 → resolve s.mem m p = .ok ea →
    exec (.jmp m p) s = .next { s with ar := ea, ir := s.mem.read s.pc, pc := ea.val }

/-- JZE: the jump is taken exactly where all 16 bits of AC are zero (the spec's own choice, D2, D4). -/
def Obligations.JzeJumpsOnZero : Prop :=
  ∀ (m : AddrMode) (p : Int) (s : State) (ea : Addr), s.pc < 32 → resolve s.mem m p = .ok ea →
    exec (.jze m p) s =
      .next { s with ar := ea, ir := s.mem.read s.pc, pc := if s.ac.toNat = 0 then ea.val else s.pc + 1 }

/-- JSA: the return address PC + 1 is written at the effective address, which becomes PC; no other word changes (the
spec's own choice, D2, D24). -/
def Obligations.JsaSavesReturnAddress : Prop :=
  ∀ (m : AddrMode) (p : Int) (s : State) (ea : Addr), s.pc < 32 → resolve s.mem m p = .ok ea →
    ∃ t, exec (.jsa m p) s = .next t ∧ t = { s with mem := t.mem, ar := ea, ir := s.mem.read s.pc, pc := ea.val } ∧
      t.mem.read ea = lit (s.pc + 1) ∧ ∀ b, b ≠ ea.val → t.mem.read b = s.mem.read b

/-- AND, OR and XOR: each bit of AC is combined with that bit of the operand; E is kept (the spec's own choice in the
operand read, D9, D10). -/
def Obligations.LogicInstructionsCombineBitwise : Prop :=
  ∀ (m : AddrMode) (p : Int) (s : State) (ea : Addr) (v : Value),
    s.pc < 32 → resolve s.mem m p = .ok ea → dataRead s.mem ea = .ok v →
    (∃ t, exec (.and m p) s = .next t ∧
      t = { s with ac := t.ac, ar := ea, ir := s.mem.read s.pc, pc := s.pc + 1 } ∧
      ∀ j, t.ac.getLsbD j = (s.ac.getLsbD j && v.getLsbD j)) ∧
    (∃ t, exec (.or m p) s = .next t ∧
      t = { s with ac := t.ac, ar := ea, ir := s.mem.read s.pc, pc := s.pc + 1 } ∧
      ∀ j, t.ac.getLsbD j = (s.ac.getLsbD j || v.getLsbD j)) ∧
    ∃ t, exec (.xor m p) s = .next t ∧
      t = { s with ac := t.ac, ar := ea, ir := s.mem.read s.pc, pc := s.pc + 1 } ∧
      ∀ j, t.ac.getLsbD j = (s.ac.getLsbD j ^^ v.getLsbD j)

/-- ADD: the 16-bit sum; E is set where the unreduced sum exceeds 65535 and kept otherwise (the spec's own choice in
the operand read, D9, D10). -/
def Obligations.AddWrapsAndSetsE : Prop :=
  ∀ (m : AddrMode) (p : Int) (s : State) (ea : Addr) (v : Value),
    s.pc < 32 → resolve s.mem m p = .ok ea → dataRead s.mem ea = .ok v →
    exec (.add m p) s = .next { s with
      ac := s.ac + v
      e := if 65535 < s.ac.toNat + v.toNat then 1 else s.e
      ar := ea, ir := s.mem.read s.pc, pc := s.pc + 1 }

/-- SUB: the difference modulo 65536, E kept on underflow too (the spec's own choice, D3, D18). -/
def Obligations.SubWraps : Prop :=
  ∀ (m : AddrMode) (p : Int) (s : State) (ea : Addr) (v : Value),
    s.pc < 32 → resolve s.mem m p = .ok ea → dataRead s.mem ea = .ok v →
    exec (.sub m p) s = .next { s with ac := s.ac - v, ar := ea, ir := s.mem.read s.pc, pc := s.pc + 1 }

/-- MUL: the low 16 bits of the product, and E is set on every MUL (the spec's own choice in the operand read, D9,
D10). -/
def Obligations.MulKeepsLowBitsAndSetsE : Prop :=
  ∀ (m : AddrMode) (p : Int) (s : State) (ea : Addr) (v : Value),
    s.pc < 32 → resolve s.mem m p = .ok ea → dataRead s.mem ea = .ok v →
    exec (.mul m p) s = .next { s with ac := s.ac * v, e := 1, ar := ea, ir := s.mem.read s.pc, pc := s.pc + 1 }

/-- DIV: the unsigned truncating quotient where the operand is not zero, and DivisionByZero with nothing else changed
where it is (the spec's own choice, D17, D34, D36). -/
def Obligations.DivDividesOrRaises : Prop :=
  ∀ (m : AddrMode) (p : Int) (s : State) (ea : Addr) (v : Value),
    s.pc < 32 → resolve s.mem m p = .ok ea → dataRead s.mem ea = .ok v →
    (v ≠ 0 → ∃ t, exec (.div m p) s = .next t ∧
      t = { s with ac := t.ac, ar := ea, ir := s.mem.read s.pc, pc := s.pc + 1 } ∧
      t.ac.toNat = s.ac.toNat / v.toNat) ∧
    (v = 0 → exec (.div m p) s = .next { s with
      mode := .stopped
      lastError := some { address := s.pc, word := some (s.mem.read s.pc), kind := .divisionByZero } })

/-- INC and DEC: the operand plus or minus one, modulo 65536, goes to AC and back to the cell, and the next word is
skipped exactly where it is zero; E is kept and no other word changes (the spec's own choice, D18, D19, D24). -/
def Obligations.IncDecWriteBackAndSkipOnZero : Prop :=
  ∀ (m : AddrMode) (p : Int) (s : State) (ea : Addr) (v : Value),
    s.pc < 32 → resolve s.mem m p = .ok ea → dataRead s.mem ea = .ok v →
    (∃ t, exec (.inc m p) s = .next t ∧
      t = { s with
        ac := v + 1, mem := t.mem, ar := ea, ir := s.mem.read s.pc
        pc := if v.toNat = 65535 then s.pc + 2 else s.pc + 1 } ∧
      t.mem.read ea = lit (v + 1).toNat ∧ ∀ b, b ≠ ea.val → t.mem.read b = s.mem.read b) ∧
    ∃ t, exec (.dec m p) s = .next t ∧
      t = { s with
        ac := v - 1, mem := t.mem, ar := ea, ir := s.mem.read s.pc
        pc := if v.toNat = 1 then s.pc + 2 else s.pc + 1 } ∧
      t.mem.read ea = lit (v - 1).toNat ∧ ∀ b, b ≠ ea.val → t.mem.read b = s.mem.read b

/-- CMP: no effect but AR, IR and PC, for every literal (the spec's own choice, D16, D21). -/
def Obligations.CmpChangesNothing : Prop :=
  ∀ (n : Int) (s : State) (a : Addr), s.pc = a.val →
    exec (.cmp n) s = .next { s with ar := a, ir := s.mem.read s.pc, pc := s.pc + 1 }

/-! ## The register-reference instructions

AR and IR after these are the fetch address and the fetched word by InstructionWriteMatrix; the statements of this
section that formalise a rule leave them to it, since their values rest on D16 and D37. -/

/-- R118, R119, R121: CLR clears AC, CRE clears E, CTE complements E, and each advances PC and changes nothing else;
each has the one word of its name. -/
def Obligations.ClearAndComplementE : Prop :=
  decode ['C', 'L', 'R'] = .ok .clr ∧ decode ['C', 'R', 'E'] = .ok .cre ∧ decode ['C', 'T', 'E'] = .ok .cte ∧
  ∀ s : State, s.pc < 32 →
    (∃ t, exec .clr s = .next t ∧ t = { s with ac := 0, pc := s.pc + 1, ar := t.ar, ir := t.ir }) ∧
    (∃ t, exec .cre s = .next t ∧ t = { s with e := 0, pc := s.pc + 1, ar := t.ar, ir := t.ir }) ∧
    ∃ t, exec .cte s = .next t ∧
      t = { s with e := if s.e = 1 then 0 else 1, pc := s.pc + 1, ar := t.ar, ir := t.ir }

/-- CTA: every bit of AC is complemented, within 16 bits, AR becomes the fetch address, and nothing else but IR and PC
changes (the width of AC and the value of AR are the spec's own choice, D3, D16; log 11). -/
def Obligations.CtaComplements : Prop :=
  ∀ (s : State) (a : Addr), s.pc = a.val →
    ∃ t, exec .cta s = .next t ∧
      t = { s with ac := t.ac, ar := a, ir := s.mem.read s.pc, pc := s.pc + 1 } ∧
      t.ac.toNat = 65535 - s.ac.toNat

/-- R123: INA adds one; E is set where the unreduced sum exceeds 65535 and kept otherwise; its word is its name. -/
def Obligations.InaIncrements : Prop :=
  decode ['I', 'N', 'A'] = .ok .ina ∧ ∀ s : State, s.pc < 32 →
    ∃ t, exec .ina s = .next t ∧
      t = { s with
        ac := s.ac + 1, e := if 65535 < s.ac.toNat + 1 then 1 else s.e
        pc := s.pc + 1, ar := t.ar, ir := t.ir }

/-- R126, R127: CLA rotates AC left and CRA right by one bit within its 16 bits, not through E; sixteen of either
restore AC, and each undoes the other; each has the one word of its name. -/
def Obligations.RotatesByOne : Prop :=
  decode ['C', 'L', 'A'] = .ok .cla ∧ decode ['C', 'R', 'A'] = .ok .cra ∧
  (∀ v : Value, (fun u : Value => u.rotateLeft 1)^[16] v = v ∧ (fun u : Value => u.rotateRight 1)^[16] v = v ∧
    (v.rotateLeft 1).rotateRight 1 = v ∧ (v.rotateRight 1).rotateLeft 1 = v) ∧
  ∀ s : State, s.pc < 32 →
    (∃ t, exec .cla s = .next t ∧
      t = { s with ac := s.ac.rotateLeft 1, pc := s.pc + 1, ar := t.ar, ir := t.ir }) ∧
    ∃ t, exec .cra s = .next t ∧
      t = { s with ac := s.ac.rotateRight 1, pc := s.pc + 1, ar := t.ar, ir := t.ir }

/-- SKZ, SKP and SKN: PC advances by two where AC is zero, positive or negative in two's complement, by one otherwise;
AR becomes the fetch address, and nothing else but IR changes (the PC policy, the sign and the value of AR are the spec's
own choice, D2, D4, D16; log 11). -/
def Obligations.SkipInstructionsTestAccumulator : Prop :=
  ∀ (s : State) (a : Addr), s.pc = a.val →
    exec .skz s = .next { s with
      ar := a, ir := s.mem.read s.pc, pc := if s.ac.toInt = 0 then s.pc + 2 else s.pc + 1 } ∧
    exec .skp s = .next { s with
      ar := a, ir := s.mem.read s.pc, pc := if 0 < s.ac.toInt then s.pc + 2 else s.pc + 1 } ∧
    exec .skn s = .next { s with
      ar := a, ir := s.mem.read s.pc, pc := if s.ac.toInt < 0 then s.pc + 2 else s.pc + 1 }

/-- HAL makes the mode Halted and leaves PC at its own address; AR is that address and IR the HAL word (the spec's own
choice, D2, D16, D37). -/
def Obligations.HalHalts : Prop :=
  ∀ (s : State) (a : Addr), s.pc = a.val →
    exec .hal s = .next { s with mode := .halted, ar := a, ir := s.mem.read s.pc }

/-! ## The I/O-reference instructions -/

/-- INP: the literal, or the next answer of the host, is added to AC modulo 65536, E kept; the answer is the free value
of log 2, so the statement holds for every one of them; AR becomes the fetch address in both forms (the spec's own
choice, D3, D16, D18, D20; log 11). -/
def Obligations.InpAddsInput : Prop :=
  ∀ (s : State) (a : Addr), s.pc = a.val →
    (∀ n : Nat, n ≤ 2047 → exec (.inp (some (n : Int))) s =
      .next { s with ac := s.ac + BitVec.ofNat 16 n, ar := a, ir := s.mem.read s.pc, pc := s.pc + 1 }) ∧
    exec (.inp none) s = .next { s with
      ac := s.ac + BitVec.ofNat 16 (Config.inputOracle s.inputCount).val, inputCount := s.inputCount + 1
      ar := a, ir := s.mem.read s.pc, pc := s.pc + 1 }

/-- OUT: AC is appended to the output log and nothing but AR, IR and PC changes (the spec's own choice, D16, D22). -/
def Obligations.OutAppendsAccumulator : Prop :=
  ∀ (s : State) (a : Addr), s.pc = a.val →
    exec .out s = .next { s with outLog := s.outLog ++ [s.ac], ar := a, ir := s.mem.read s.pc, pc := s.pc + 1 }

/-- The seven handshake mnemonics only advance: no skip, no flag, no output (the spec's own choice, D16, D23). -/
def Obligations.HandshakesOnlyAdvance : Prop :=
  ∀ (i : Instr) (s : State) (a : Addr), i ∈ [.sfi, .sfo, .put, .opt, .spi, .spo, .sie] → s.pc = a.val →
    exec i s = .next { s with ar := a, ir := s.mem.read s.pc, pc := s.pc + 1 }

/-! ## The step -/

/-- Where PC's word is an instruction word that decodes to an instruction, and the turn is the engine's, the step is
that instruction's meaning at that state, with its turn taken off; where it leaves Running, the host's `run()` is
told the mode and the error record (log 3, log 4). -/
def Obligations.StepRunsTheDecodedInstruction : Prop :=
  ∀ (s : State) (i : Instr) (rest : List Turn),
    s.mode = .running → s.pc < 32 → classify (s.mem.read s.pc) = .instr → decode (s.mem.read s.pc) = .ok i →
    (s.pending = [] ∧ rest = [] ∨ s.pending = .engine :: rest) →
    step s = onNext (exec i { s with pending := rest }) fun t =>
      if t.mode = .running then t else { t with replies := t.replies ++ [.report t.mode t.lastError] }

/-- An empty or a data word is skipped as a step of its own: AR becomes the fetch address, IR the word and PC the next
address, and nothing else changes (the spec's own choice, D5; log 11). The clauses say it of the engine step; of the
machine's step in Running, with the engine's turn next or no turn left (log 3); and of the host's `step()` in Idle and
Stopped, which also clears the error record and returns the mode (D25, D33; the turn is log 3, the reply log 4). -/
def Obligations.StepSkipsEmptyAndDataWords : Prop :=
  ∀ (s : State) (a : Addr), s.pc = a.val → classify (s.mem.read s.pc) ≠ .instr →
    engineStep s = .next { s with ar := a, ir := s.mem.read s.pc, pc := s.pc + 1 } ∧
    (∀ rest : List Turn, s.mode = .running →
      (s.pending = [] ∧ rest = [] ∨ s.pending = .engine :: rest) →
      step s = .next { s with pending := rest, ar := a, ir := s.mem.read s.pc, pc := s.pc + 1 }) ∧
    ∀ rest : List Turn, (s.mode = .idle ∨ s.mode = .stopped) → s.pending = .host .step :: rest →
      step s = .next { s with
        pending := rest, lastError := none, ar := a, ir := s.mem.read s.pc, pc := s.pc + 1
        replies := s.replies ++ [.report s.mode none] }

/-- The machine never stops for want of a meaning: every step from every state answers a next state, errors included
(log 8). -/
def Obligations.StepAlwaysAnswersNextState : Prop :=
  ∀ s : State, ∃ t, step s = .next t

/-- Which instruction writes which register or word: AC, E, the Word Store (only at AR'), the output log, the mode and
the count of answers only by the instructions named for them, the host's own fields by none; and a completed
instruction leaves IR the fetched word and AR the effective address, or the fetch address where it has no address
operand (the matrix is derived in the spec; AR and IR are its own choice, D16, D37). -/
def Obligations.InstructionWriteMatrix : Prop :=
  ∀ (i : Instr) (s t : State), exec i s = .next t →
    (writesAc i = false → t.ac = s.ac) ∧ (writesE i = false → t.e = s.e) ∧ (writesMem i = false → t.mem = s.mem) ∧
    (writesMem i = true → ∀ b, b ≠ t.ar.val → t.mem.read b = s.mem.read b) ∧
    (i ≠ .out → t.outLog = s.outLog) ∧ (i ≠ .inp none → t.inputCount = s.inputCount) ∧
    (i ≠ .hal → t.mode = s.mode ∨ t.mode = .stopped) ∧ t.pending = s.pending ∧ t.replies = s.replies ∧
    (s.lastError = none → t.lastError = none → t.ir = s.mem.read s.pc ∧
      (i.address? = none → t.ar.val = s.pc) ∧ ∀ m p, i.address? = some (m, p) → resolve s.mem m p = .ok t.ar)

/-- No run creates an instruction word: without a `load` of the host, a word that is an instruction word after any
number of steps was there before (derived in the spec from its store and skip rules). -/
def Obligations.NoRunCreatesAnInstruction : Prop :=
  ∀ (k : Nat) (s t : State), (∀ ws, Turn.host (.load ws) ∉ s.pending) → runFor k s = .next t →
    ∀ a, classify (t.mem.read a) = .instr → t.mem.read a = s.mem.read a

/-- Every step keeps the invariant: the Word Store in canonical form, PC at most 33, an error record only in Stopped
(PC's bound is derived in the spec; the canonical form is the model's, log 1; that a record stands only in Stopped rests
on the spec's own choice that `run()`, `step()`, `load()` and `reset()` clear it, D33, log 11). -/
def Obligations.EveryStepKeepsTheInvariant : Prop :=
  ∀ s t : State, s.Inv → step s = .next t → t.Inv

/-- The reset state has the invariant. -/
def Obligations.ResetStateHasTheInvariant : Prop := State.reset.Inv

/-- From an address of the Word Store, one step leads PC at most to 33, and to 33 only by a skip instruction at 31
(derived in the spec). -/
def Obligations.PcReaches33OnlyBySkipAt31 : Prop :=
  ∀ s t : State, s.pc ≤ 31 → engineStep s = .next t →
    t.pc ≤ 33 ∧ (t.pc = 33 → s.pc = 31 ∧ ∃ i, decode (s.mem.read s.pc) = .ok i ∧
      (i ∈ [.skz, .skp, .skn] ∨ ∃ m p, i ∈ [.inc m p, .dec m p]))

/-! ## The lifecycle and the host's operations -/

/-- `run()`: from Idle and Stopped to Running with the record cleared; in Running and Halted it only answers (the spec's
own choice, D33, D35, D39; the answer is log 4). -/
def Obligations.RunCommandStartsTheEngine : Prop :=
  ∀ (s : State) (rest : List Turn), s.pending = .host .run :: rest →
    (s.mode = .idle ∨ s.mode = .stopped →
      step s = .next { s with pending := rest, lastError := none, mode := .running }) ∧
    (s.mode = .running ∨ s.mode = .halted →
      step s = .next { s with pending := rest, replies := s.replies ++ [.report s.mode s.lastError] })

/-- `step()`: in Idle and Stopped exactly one engine step, after the record is cleared, and its mode and record are
returned; in Running and Halted it only answers (the spec's own choice, D25, D35, D39; the answer is log 4). -/
def Obligations.HostStepRunsExactlyOneStep : Prop :=
  ∀ (s : State) (rest : List Turn), s.pending = .host .step :: rest →
    (s.mode = .idle ∨ s.mode = .stopped →
      ∃ t, engineStep { s with pending := rest, lastError := none } = .next t ∧
        step s = .next { t with replies := s.replies ++ [.report t.mode t.lastError] }) ∧
    (s.mode = .running ∨ s.mode = .halted →
      step s = .next { s with pending := rest, replies := s.replies ++ [.report s.mode s.lastError] })

/-- `load(words)`: word i at address i, the rest empty, mode Idle, the record cleared, all else kept; more than 32 words
change nothing and the host is told (the spec's own choice, D27; the report that ends a run is log 4). -/
def Obligations.LoadReplacesTheWordStore : Prop :=
  ∀ (s : State) (ws : List Text) (rest : List Turn), s.pending = .host (.load ws) :: rest →
    (ws.length ≤ 32 → ∃ t, step s = .next t ∧
      t = { s with
        mem := t.mem, mode := .idle, lastError := none, pending := rest
        replies := if s.mode = .running then s.replies ++ [.report .idle none] else s.replies } ∧
      ∀ a, t.mem.read a = (ws[a]?).getD []) ∧
    (32 < ws.length → step s = .next { s with pending := rest, replies := s.replies ++ [.loadFailed] })

/-- `reset()` from any mode: every register zero, IR and every word empty, mode Idle, no error; the output log is kept
(the spec's own choice, D28, D33, D38), and so are the fields of the model's own (log 2, log 3, log 4). -/
def Obligations.ResetClearsAllButTheOutputLog : Prop :=
  ∀ (s : State) (rest : List Turn), s.pending = .host .reset :: rest →
    ∃ t, step s = .next t ∧
      t.ac = 0 ∧ t.pc = 0 ∧ t.ar = 0 ∧ t.e = 0 ∧ t.ir = [] ∧ (∀ a, t.mem.read a = []) ∧
      t.mode = .idle ∧ t.lastError = none ∧ t.outLog = s.outLog ∧ t.inputCount = s.inputCount ∧ t.pending = rest ∧
      t.replies = if s.mode = .running then s.replies ++ [.report .idle none] else s.replies

/-- `dump()` returns the 32 words in address order, `registers()` returns AC, PC, AR, E and IR, each in every mode, and
neither changes anything, but for the turn taken and the answer given, which are the model's own (log 3, log 4). -/
def Obligations.DumpReturnsWordsInAddressOrder : Prop :=
  ∀ (s : State) (rest : List Turn),
    (s.pending = .host .dump :: rest →
      ∃ ws : List Text, ws.length = 32 ∧ (∀ a, a < 32 → ws[a]? = some (s.mem.read a)) ∧
        step s = .next { s with pending := rest, replies := s.replies ++ [.words ws] }) ∧
    (s.pending = .host .registers :: rest →
      step s = .next { s with
        pending := rest
        replies := s.replies ++ [.registers { ac := s.ac, pc := s.pc, ar := s.ar, e := s.e, ir := s.ir }] })

/-- Halted is terminal: over any number of steps without `load` and `reset`, no `run()`, `step()`, `stop()` or engine
turn changes any register, word, mode, record or log (the spec's own choice, D35). -/
def Obligations.HaltedIsTerminal : Prop :=
  ∀ (k : Nat) (s : State), s.mode = .halted →
    (∀ turn ∈ s.pending, turn ≠ .host .reset ∧ ∀ ws, turn ≠ .host (.load ws)) →
    ∃ t, runFor k s = .next t ∧ t = { s with pending := s.pending.drop k, replies := t.replies }

/-- The mode after every step is one the transition table allows for the turn and the mode before (the spec's own
choice, D25, D26, D27, D35, D39). -/
def Obligations.ModeFollowsTheTransitionTable : Prop :=
  ∀ s t : State, step s = .next t → t.mode ∈ nextModes (s.pending.head?.getD .engine) s.mode

/-- `stop()` in Running takes effect between steps and keeps all else, and `run()` after it goes on from the same state;
in every other mode `stop()` changes nothing (the spec's own choice, D26, D33; the report is log 4). -/
def Obligations.StopThenRunResumes : Prop :=
  ∀ (s : State) (rest : List Turn),
    (s.mode = .running → s.lastError = none → s.pending = .host .stop :: .host .run :: rest →
      step s = .next { s with
        mode := .stopped, pending := .host .run :: rest, replies := s.replies ++ [.report .stopped none] } ∧
      runFor 2 s = .next { s with pending := rest, replies := s.replies ++ [.report .stopped none] }) ∧
    (s.mode ≠ .running → s.pending = .host .stop :: rest → step s = .next { s with pending := rest })

/-- Re-entry after an error fetches the same word and raises the same error (the spec's own choice, D17, D33; log 11).
The three turns, the failing step, the host's `run()` and the step after it, are named in `pending` (log 3), and the
replies given meanwhile are left open (log 4). -/
def Obligations.ErrorRepeatsOnReentry : Prop :=
  ∀ (s t : State) (r : ErrorRecord) (rest : List Turn),
    s.mode = .running → s.lastError = none → s.pending = .engine :: .host .run :: .engine :: rest →
    step s = .next t → t.lastError = some r →
    ∃ u, runFor 2 t = .next u ∧ u = { t with pending := rest, replies := u.replies }

/-- Running off the end: from any address on, a store that holds no instruction word from there on is skipped word by
word, one step each, and the fetch at 32 raises OutOfRange (the spec's own choice, D5, D7, D17, D34; log 11). It is
the run in which the host never acts again, since no turn is left (log 3), and the one reply is the report that ends
the run (log 4). -/
def Obligations.RunningOffTheEndRaisesOutOfRange : Prop :=
  ∀ s : State, s.mode = .running → s.pending = [] → s.pc ≤ 32 →
    (∀ a, s.pc ≤ a → a < 32 → classify (s.mem.read a) ≠ .instr) →
    ∃ t, runFor (33 - s.pc) s = .next t ∧
      t = { s with
        pc := 32, ar := t.ar, ir := t.ir, mode := .stopped
        lastError := some { address := 32, word := none, kind := .outOfRange 32 }
        replies := s.replies ++
          [.report .stopped (some { address := 32, word := none, kind := .outOfRange 32 })] } ∧
      (s.pc < 32 → t.ar = 31 ∧ t.ir = s.mem.read 31)

/-! ## Instructions together -/

/-- A store and then a load from the same effective address give the stored value back (the source's testable property
of STR and LDA; the spelling between them is the spec's own choice, D24). -/
def Obligations.StoreThenLoadGivesTheStoredValue : Prop :=
  ∀ (m m' : AddrMode) (p p' : Int) (s t : State) (ea : Addr),
    s.pc < 31 → resolve s.mem m p = .ok ea → exec (.str m p) s = .next t → resolve t.mem m' p' = .ok ea →
    ∃ u, exec (.lda m' p') t = .next u ∧ u.ac = s.ac ∧ u.mem = t.mem

/-- A call writes its return cell, the next step skips that cell, and an indirect jump through the cell comes back to
the word after the call, as long as the cell is kept (derived in the spec from its JSA, JMP and skip rules). -/
def Obligations.SubroutineCallAndReturn : Prop :=
  ∀ (m : AddrMode) (p : Int) (s t : State) (ea : Addr),
    s.pc < 31 → resolve s.mem m p = .ok ea → exec (.jsa m p) s = .next t →
    engineStep t = .next { t with ir := lit (s.pc + 1), pc := ea.val + 1 } ∧
    ∀ u : State, u.pc < 32 → u.mem.read ea = t.mem.read ea →
      ∃ v, exec (.jmp .indirect (ea.val : Int)) u = .next v ∧ v.pc = s.pc + 1 ∧ v.mem = u.mem ∧ v.ac = u.ac

/-- Each engine step has exactly one of the four outcomes, and which one is decided by the word and by the error: a
skip for an empty or data word, Halted for HAL alone, Faulted with nothing but the mode and the record changed, Executed
otherwise (derived in the spec from its step rules; that a faulted step commits nothing is the spec's own choice, D17,
log 11). -/
def Obligations.EngineStepHasOneOfFourOutcomes : Prop :=
  ∀ s t : State, s.mode ≠ .halted → s.lastError = none → engineStep s = .next t →
    (stepOutcome s t = .skipped ↔ s.pc < 32 ∧ classify (s.mem.read s.pc) ≠ .instr) ∧
    (stepOutcome s t = .halted ↔
      s.pc < 32 ∧ classify (s.mem.read s.pc) = .instr ∧ decode (s.mem.read s.pc) = .ok .hal) ∧
    (stepOutcome s t = .executed → t.mode = s.mode ∧ ∃ i, decode (s.mem.read s.pc) = .ok i ∧ i ≠ .hal) ∧
    ∀ k, stepOutcome s t = .faulted k → t = { s with mode := .stopped, lastError := t.lastError }
end

