-- ==== Sys2Proof/Laws/Text.lean ====
section
/-! SUPPORT. Laws of texts: a canonical literal reads back as its number and holds no whitespace, tokens joined by
spaces split into themselves, and whitespace around a word changes neither its tokens nor its class. -/

namespace Sys2Proof

/-! ## Canonical literals -/

/-- A text that is not empty and holds only decimal digits. -/
def IsDigits (t : Text) : Prop := t ≠ [] ∧ ∀ c ∈ t, 48 ≤ c.toNat ∧ c.toNat ≤ 57

theorem digitChar_toNat {d : Nat} (h : d < 10) : (digitChar d).toNat = 48 + d := by
  interval_cases d <;> rfl

theorem digitVal_digitChar {d : Nat} (h : d < 10) : digitVal (digitChar d) = some d := by
  simp only [digitVal, digitChar_toNat h]
  rw [if_pos (by omega)]
  congr 1
  omega

theorem digitsValue_append (t u : Text) (acc : Nat) :
    digitsValue acc (t ++ u) = (digitsValue acc t).bind fun v => digitsValue v u := by
  induction t generalizing acc with
  | nil => rfl
  | cons c cs ih =>
    simp only [List.cons_append, digitsValue]
    cases digitVal c with
    | none => rfl
    | some d => exact ih _

theorem litFuel_isDigits (fuel n : Nat) (h : n < fuel) : IsDigits (litFuel fuel n) := by
  induction fuel generalizing n with
  | zero => omega
  | succ f ih =>
    simp only [litFuel]
    split
    · rename_i hn
      refine ⟨by simp, fun c hc => ?_⟩
      rw [List.mem_singleton.1 hc, digitChar_toNat hn]
      omega
    · refine ⟨by simp, fun c hc => ?_⟩
      rcases List.mem_append.1 hc with hc | hc
      · exact (ih _ (by omega)).2 c hc
      · rw [List.mem_singleton.1 hc, digitChar_toNat (by omega)]
        omega

theorem digitsValue_litFuel (fuel n : Nat) (h : n < fuel) : digitsValue 0 (litFuel fuel n) = some n := by
  induction fuel generalizing n with
  | zero => omega
  | succ f ih =>
    simp only [litFuel]
    split
    · rename_i hn
      simp [digitsValue, digitVal_digitChar hn]
    · rw [digitsValue_append, ih _ (by omega)]
      simp only [Option.bind_some, digitsValue, digitVal_digitChar (show n % 10 < 10 by omega)]
      congr 1
      omega

theorem lit_isDigits (n : Nat) : IsDigits (lit n) := litFuel_isDigits _ _ (by omega)

theorem natNum_of_isDigits {t : Text} (h : IsDigits t) : natNum t = digitsValue 0 t := by
  cases t with
  | nil => exact absurd rfl h.1
  | cons c cs => rfl

theorem num_of_isDigits {t : Text} (h : IsDigits t) : num t = (natNum t).map fun n : Nat => (n : Int) := by
  cases t with
  | nil => exact absurd rfl h.1
  | cons c cs =>
    have hc : c ≠ '-' := by
      rintro rfl
      have := (h.2 '-' (by simp)).1
      exact absurd this (by decide)
    simp only [Sys2Proof.num, if_neg hc]

theorem natNum_lit (n : Nat) : natNum (lit n) = some n := by
  rw [natNum_of_isDigits (lit_isDigits n)]
  exact digitsValue_litFuel _ _ (by omega)

@[simp] theorem num_lit (n : Nat) : num (lit n) = some (n : Int) := by
  rw [num_of_isDigits (lit_isDigits n), natNum_lit]
  rfl

@[simp] theorem num_litInt (v : Int) : num (litInt v) = some v := by
  cases v with
  | ofNat n => exact num_lit n
  | negSucc n =>
    simp only [litInt, num, if_true, natNum_lit]
    rfl

/-! ## Tokens -/

/-- A token: not empty, and no whitespace in it. -/
def IsToken (t : Text) : Prop := t ≠ [] ∧ ∀ c ∈ t, isSpace c = false

theorem IsDigits.isToken {t : Text} (h : IsDigits t) : IsToken t := by
  refine ⟨h.1, fun c hc => ?_⟩
  have := h.2 c hc
  simp [isSpace]
  omega

theorem litInt_isToken (v : Int) : IsToken (litInt v) := by
  cases v with
  | ofNat n => exact (lit_isDigits n).isToken
  | negSucc n =>
    refine ⟨by simp [litInt], fun c hc => ?_⟩
    rcases List.mem_cons.1 hc with rfl | hc
    · decide
    · exact (lit_isDigits (n + 1)).isToken.2 c hc

theorem splitFirst_append (t w : Text) (h : ∀ c ∈ t, isSpace c = false) :
    splitFirst (t ++ w) = (t ++ (splitFirst w).1, (splitFirst w).2) := by
  induction t with
  | nil => rfl
  | cons c cs ih =>
    simp only [List.cons_append, splitFirst, h c (by simp)]
    rw [ih fun c hc => h c (by simp [hc])]
    rfl

theorem consToken_of_isToken {t : Text} (h : t ≠ []) (ts : List Text) : consToken t ts = t :: ts := by
  cases t with
  | nil => exact absurd rfl h
  | cons c cs => rfl

theorem tokens_single {t : Text} (h : IsToken t) : tokens t = [t] := by
  have := splitFirst_append t [] h.2
  simp only [List.append_nil] at this
  simp only [tokens, this, splitFirst, List.append_nil]
  exact consToken_of_isToken h.1 _

theorem tokens_cons_space {t : Text} (h : IsToken t) (w : Text) : tokens (t ++ ' ' :: w) = t :: tokens w := by
  have hs : splitFirst (' ' :: w) = ([], tokens w) := by
    simp [splitFirst, tokens, show isSpace ' ' = true from by decide]
  simp only [tokens, splitFirst_append t _ h.2, hs, List.append_nil]
  exact consToken_of_isToken h.1 _

/-- Tokens joined by one space split into themselves. -/
theorem tokens_join (ts : List Text) (h : ∀ t ∈ ts, IsToken t) : tokens (join ts) = ts := by
  induction ts with
  | nil => rfl
  | cons t ts ih =>
    cases ts with
    | nil => exact tokens_single (h t (by simp))
    | cons u us =>
      simp only [join]
      rw [tokens_cons_space (h t (by simp)), ih fun t ht => h t (by simp [ht])]

/-! ## Whitespace around a word -/

theorem tokens_space_cons {c : Char} (h : isSpace c = true) (w : Text) : tokens (c :: w) = tokens w := by
  simp [tokens, splitFirst, h, consToken]

theorem tokens_trimLeft (w : Text) : tokens (trimLeft w) = tokens w := by
  induction w with
  | nil => rfl
  | cons c cs ih =>
    simp only [trimLeft]
    split
    · rename_i h
      rw [ih, tokens_space_cons h]
    · rfl

theorem splitFirst_trimRight (w : Text) : splitFirst (trimRight w) = splitFirst w := by
  induction w with
  | nil => rfl
  | cons c cs ih =>
    simp only [trimRight]
    split
    · rename_i h
      simp only [Bool.and_eq_true, List.isEmpty_iff] at h
      rw [h.2] at ih
      have e : splitFirst ([] : Text) = ([], []) := rfl
      simp [splitFirst, h.1, ← ih, consToken]
    · simp only [splitFirst, ih]

/-- Trimming changes no token (R9 splits the trimmed word; the model splits the word). -/
theorem tokens_trim (w : Text) : tokens (trim w) = tokens w := by
  rw [trim, ← tokens_trimLeft w]
  simp only [tokens, splitFirst_trimRight]

theorem trimLeft_of_head {c : Char} {cs : Text} (h : isSpace c = false) : trimLeft (c :: cs) = c :: cs := by
  simp [trimLeft, h]

theorem trimRight_of_isToken {t : Text} (h : ∀ c ∈ t, isSpace c = false) : trimRight t = t := by
  induction t with
  | nil => rfl
  | cons c cs ih =>
    simp [trimRight, h c (by simp), ih fun c hc => h c (by simp [hc])]

theorem trim_of_isToken {t : Text} (h : IsToken t) : trim t = t := by
  cases t with
  | nil => exact absurd rfl h.1
  | cons c cs =>
    rw [trim, trimLeft_of_head (h.2 c (by simp))]
    exact trimRight_of_isToken h.2

/-- Every canonical literal is a data word with its number as value (R38). -/
@[simp] theorem classify_lit (n : Nat) : classify (lit n) = .data (n : Int) := by
  have ht := trim_of_isToken (lit_isDigits n).isToken
  have hne : (lit n).isEmpty = false := by
    simpa using (lit_isDigits n).1
  simp [classify, ht, hne]

theorem lit_ne_nil (n : Nat) : lit n ≠ [] := (lit_isDigits n).1

@[simp] theorem classify_nil : classify [] = .empty := rfl

/-- A decoded word's tokens decide it: two words of the same tokens decode alike. -/
theorem decode_congr {w u : Text} (h : tokens w = tokens u) : decode w = decode u := by
  simp only [decode, h]

end Sys2Proof
end

