-- ==== Sys2Proof/Laws/Memory.lean ====
section
/-! SUPPORT. Laws of the Word Store: read after write, and that every operation keeps the canonical form. -/

namespace Sys2Proof.Machine

@[simp] theorem Memory.read_nil (a : Nat) : Memory.read [] a = [] := rfl

theorem Memory.read_cons (c : Cell) (cs : Memory) (a : Nat) :
    Memory.read (c :: cs) a = if c.1 = a then c.2 else Memory.read cs a := rfl

theorem Memory.read_erase_same (m : Memory) (a : Nat) : (m.erase a).read a = [] := by
  induction m with
  | nil => rfl
  | cons c cs ih =>
    by_cases h : c.1 = a
    · have : Memory.erase (c :: cs) a = Memory.erase cs a := by simp [Memory.erase, h]
      rw [this, ih]
    · have : Memory.erase (c :: cs) a = c :: Memory.erase cs a := by simp [Memory.erase, h]
      rw [this, Memory.read_cons, if_neg h, ih]

theorem Memory.read_erase_other (m : Memory) {a b : Nat} (hab : b ≠ a) : (m.erase a).read b = m.read b := by
  induction m with
  | nil => rfl
  | cons c cs ih =>
    by_cases h : c.1 = a
    · have : Memory.erase (c :: cs) a = Memory.erase cs a := by simp [Memory.erase, h]
      rw [this, ih, Memory.read_cons, if_neg (by omega)]
    · have : Memory.erase (c :: cs) a = c :: Memory.erase cs a := by simp [Memory.erase, h]
      rw [this, Memory.read_cons, Memory.read_cons, ih]

theorem Memory.read_insert_other (m : Memory) {a b : Nat} (w : Text) (hab : b ≠ a) :
    (m.insert a w).read b = m.read b := by
  induction m with
  | nil => simp [Memory.insert, Memory.read_cons, Ne.symm hab]
  | cons c cs ih =>
    simp only [Memory.insert]
    split
    · rw [Memory.read_cons, if_neg (by simpa using Ne.symm hab)]
    · rw [Memory.read_cons, Memory.read_cons, ih]

theorem Memory.read_insert_same (m : Memory) (a : Nat) (w : Text) (h : ∀ c ∈ m, c.1 ≠ a) :
    (m.insert a w).read a = w := by
  induction m with
  | nil => simp [Memory.insert, Memory.read_cons]
  | cons c cs ih =>
    simp only [Memory.insert]
    split
    · simp [Memory.read_cons]
    · rw [Memory.read_cons, if_neg (h c (by simp)), ih fun d hd => h d (by simp [hd])]

theorem Memory.erase_ne (m : Memory) (a : Nat) : ∀ c ∈ m.erase a, c.1 ≠ a := by
  intro c hc
  simpa using (List.mem_filter.1 hc).2

/-- Reading the written address gives the written word (R33). -/
@[simp] theorem Memory.read_write_same (m : Memory) (a : Nat) (w : Text) : (m.write a w).read a = w := by
  simp only [Memory.write]
  split
  · rename_i h
    rw [Memory.read_erase_same, List.isEmpty_iff.1 h]
  · exact Memory.read_insert_same _ _ _ (Memory.erase_ne m a)

/-- Every other address reads as before (R33). -/
theorem Memory.read_write_other (m : Memory) {a b : Nat} (w : Text) (h : b ≠ a) :
    (m.write a w).read b = m.read b := by
  simp only [Memory.write]
  split
  · exact Memory.read_erase_other m h
  · rw [Memory.read_insert_other _ _ h, Memory.read_erase_other m h]

/-! ## The canonical form -/

theorem Memory.risingFrom_mono (m : Memory) {lo hi : Nat} (h : lo ≤ hi) (hm : m.risingFrom hi = true) :
    m.risingFrom lo = true := by
  cases m with
  | nil => rfl
  | cons c cs =>
    simp only [Memory.risingFrom, Bool.and_eq_true, decide_eq_true_eq] at hm ⊢
    exact ⟨by omega, hm.2⟩

theorem Memory.risingFrom_erase (m : Memory) (a lo : Nat) (h : m.risingFrom lo = true) :
    (m.erase a).risingFrom lo = true := by
  induction m generalizing lo with
  | nil => rfl
  | cons c cs ih =>
    simp only [Memory.risingFrom, Bool.and_eq_true, decide_eq_true_eq] at h
    by_cases hc : c.1 = a
    · have : Memory.erase (c :: cs) a = Memory.erase cs a := by simp [Memory.erase, hc]
      rw [this]
      exact Memory.risingFrom_mono _ (by omega) (ih _ h.2)
    · have : Memory.erase (c :: cs) a = c :: Memory.erase cs a := by simp [Memory.erase, hc]
      rw [this]
      simp only [Memory.risingFrom, Bool.and_eq_true, decide_eq_true_eq]
      exact ⟨h.1, ih _ h.2⟩

theorem Memory.risingFrom_insert (m : Memory) (a lo : Nat) (w : Text) (hlo : lo ≤ a)
    (h : m.risingFrom lo = true) (hne : ∀ c ∈ m, c.1 ≠ a) : (m.insert a w).risingFrom lo = true := by
  induction m generalizing lo with
  | nil => simp [Memory.insert, Memory.risingFrom, hlo]
  | cons c cs ih =>
    have hca := hne c (by simp)
    simp only [Memory.risingFrom, Bool.and_eq_true, decide_eq_true_eq] at h
    simp only [Memory.insert]
    split
    · simp only [Memory.risingFrom, Bool.and_eq_true, decide_eq_true_eq]
      exact ⟨hlo, by omega, h.2⟩
    · simp only [Memory.risingFrom, Bool.and_eq_true, decide_eq_true_eq]
      exact ⟨h.1, ih _ (by omega) h.2 fun d hd => hne d (by simp [hd])⟩

theorem Memory.mem_insert {m : Memory} {a : Nat} {w : Text} {c : Cell} (h : c ∈ m.insert a w) :
    c = (a, w) ∨ c ∈ m := by
  induction m with
  | nil => exact .inl (by simpa [Memory.insert] using h)
  | cons d ds ih =>
    simp only [Memory.insert] at h
    split at h
    · rcases List.mem_cons.1 h with h | h
      · exact .inl h
      · exact .inr h
    · rcases List.mem_cons.1 h with h | h
      · exact .inr (by simp [h])
      · rcases ih h with h | h
        · exact .inl h
        · exact .inr (by simp [h])

theorem Memory.wf_iff (m : Memory) :
    m.wf = true ↔ m.risingFrom 0 = true ∧ ∀ c ∈ m, c.1 < 32 ∧ c.2 ≠ [] := by
  simp [Memory.wf, Config.memWords]

/-- A write at an address of the Word Store keeps the canonical form. -/
theorem Memory.write_wf {m : Memory} {a : Nat} (w : Text) (ha : a < 32) (h : m.wf = true) :
    (m.write a w).wf = true := by
  rw [Memory.wf_iff] at h ⊢
  have herase : ∀ c ∈ m.erase a, c.1 < 32 ∧ c.2 ≠ [] := fun c hc => h.2 c (List.mem_filter.1 hc).1
  have hrise := Memory.risingFrom_erase m a 0 h.1
  simp only [Memory.write]
  split
  · exact ⟨hrise, herase⟩
  · rename_i hw
    refine ⟨Memory.risingFrom_insert _ _ _ _ (by omega) hrise (Memory.erase_ne m a), fun c hc => ?_⟩
    rcases Memory.mem_insert hc with rfl | hc
    · exact ⟨ha, by simpa using hw⟩
    · exact herase c hc

theorem Memory.ofWords_rising (ws : List Text) (a : Nat) : (Memory.ofWords a ws).risingFrom a = true := by
  induction ws generalizing a with
  | nil => rfl
  | cons w ws ih =>
    simp only [Memory.ofWords]
    split
    · exact Memory.risingFrom_mono _ (by omega) (ih (a + 1))
    · simpa [Memory.risingFrom] using ih (a + 1)

theorem Memory.ofWords_mem (ws : List Text) (a : Nat) :
    ∀ c ∈ Memory.ofWords a ws, c.1 < a + ws.length ∧ c.2 ≠ [] := by
  induction ws generalizing a with
  | nil => simp [Memory.ofWords]
  | cons w ws ih =>
    intro c hc
    simp only [Memory.ofWords] at hc
    split at hc
    · have := ih (a + 1) c hc
      exact ⟨by simp only [List.length_cons]; omega, this.2⟩
    · rename_i hw
      rcases List.mem_cons.1 hc with rfl | hc
      · exact ⟨by simp, by simpa using hw⟩
      · have := ih (a + 1) c hc
        exact ⟨by simp only [List.length_cons]; omega, this.2⟩

/-- A loaded store has the canonical form (R91). -/
theorem Memory.ofWords_wf {ws : List Text} (h : ws.length ≤ 32) : (Memory.ofWords 0 ws).wf = true := by
  rw [Memory.wf_iff]
  refine ⟨Memory.ofWords_rising ws 0, fun c hc => ?_⟩
  have := Memory.ofWords_mem ws 0 c hc
  exact ⟨by omega, this.2⟩

theorem Memory.read_of_rising {m : Memory} {lo a : Nat} (h : m.risingFrom lo = true) (ha : a < lo) :
    m.read a = [] := by
  induction m generalizing lo with
  | nil => rfl
  | cons c cs ih =>
    simp only [Memory.risingFrom, Bool.and_eq_true, decide_eq_true_eq] at h
    rw [Memory.read_cons, if_neg (by omega), ih h.2 (by omega)]

/-- Word i of a loaded sequence is at address i, and the addresses beyond it are empty (R91). -/
theorem Memory.read_ofWords (ws : List Text) (a i : Nat) :
    (Memory.ofWords a ws).read (a + i) = (ws[i]?).getD [] := by
  induction ws generalizing a i with
  | nil => simp [Memory.ofWords]
  | cons w ws ih =>
    cases i with
    | zero =>
      simp only [Memory.ofWords]
      split
      · rename_i hw
        simp only [List.isEmpty_iff] at hw
        subst hw
        simpa using Memory.read_of_rising (Memory.ofWords_rising ws (a + 1)) (by omega)
      · simp [Memory.read_cons]
    | succ i =>
      have e : a + (i + 1) = a + 1 + i := by omega
      simp only [Memory.ofWords, e]
      split
      · simpa using ih (a + 1) i
      · rw [Memory.read_cons, if_neg (by simp only; omega)]
        simpa using ih (a + 1) i

theorem reset_mem_wf : State.reset.mem.wf = true := by decide

/-! ## Data writes (R38) -/

@[simp] theorem dataWrite_read_same (m : Memory) (a : Addr) (n : Nat) : (dataWrite m a n).read a = lit n :=
  Memory.read_write_same m a _

theorem dataWrite_read_other (m : Memory) (a : Addr) (n : Nat) {b : Nat} (h : b ≠ a.val) :
    (dataWrite m a n).read b = m.read b :=
  Memory.read_write_other m _ h

theorem dataWrite_wf {m : Memory} (a : Addr) (n : Nat) (h : m.wf = true) : (dataWrite m a n).wf = true :=
  Memory.write_wf _ a.isLt h

end Sys2Proof.Machine
end

