-- ==== Sys2Proof/Laws/State.lean ====
section
/-! SUPPORT. One lemma per field per update of State, true by rfl, so that no later proof unfolds an update. -/

namespace Sys2Proof.Machine

@[simp] theorem State.commit_ac (s : State) (ar : Addr) (ir : Text) (pc : Nat) : (s.commit ar ir pc).ac = s.ac := rfl
@[simp] theorem State.commit_pc (s : State) (ar : Addr) (ir : Text) (pc : Nat) : (s.commit ar ir pc).pc = pc := rfl
@[simp] theorem State.commit_ar (s : State) (ar : Addr) (ir : Text) (pc : Nat) : (s.commit ar ir pc).ar = ar := rfl
@[simp] theorem State.commit_ir (s : State) (ar : Addr) (ir : Text) (pc : Nat) : (s.commit ar ir pc).ir = ir := rfl
@[simp] theorem State.commit_e (s : State) (ar : Addr) (ir : Text) (pc : Nat) : (s.commit ar ir pc).e = s.e := rfl
@[simp] theorem State.commit_mem (s : State) (ar : Addr) (ir : Text) (pc : Nat) : (s.commit ar ir pc).mem = s.mem := rfl
@[simp] theorem State.commit_mode (s : State) (ar : Addr) (ir : Text) (pc : Nat) : (s.commit ar ir pc).mode = s.mode := rfl
@[simp] theorem State.commit_lastError (s : State) (ar : Addr) (ir : Text) (pc : Nat) : (s.commit ar ir pc).lastError = s.lastError := rfl
@[simp] theorem State.commit_outLog (s : State) (ar : Addr) (ir : Text) (pc : Nat) : (s.commit ar ir pc).outLog = s.outLog := rfl
@[simp] theorem State.commit_inputCount (s : State) (ar : Addr) (ir : Text) (pc : Nat) : (s.commit ar ir pc).inputCount = s.inputCount := rfl
@[simp] theorem State.commit_pending (s : State) (ar : Addr) (ir : Text) (pc : Nat) : (s.commit ar ir pc).pending = s.pending := rfl
@[simp] theorem State.commit_replies (s : State) (ar : Addr) (ir : Text) (pc : Nat) : (s.commit ar ir pc).replies = s.replies := rfl

@[simp] theorem State.raise_ac (s : State) (w : Option Text) (k : ErrorKind) : (s.raise w k).ac = s.ac := rfl
@[simp] theorem State.raise_pc (s : State) (w : Option Text) (k : ErrorKind) : (s.raise w k).pc = s.pc := rfl
@[simp] theorem State.raise_ar (s : State) (w : Option Text) (k : ErrorKind) : (s.raise w k).ar = s.ar := rfl
@[simp] theorem State.raise_ir (s : State) (w : Option Text) (k : ErrorKind) : (s.raise w k).ir = s.ir := rfl
@[simp] theorem State.raise_e (s : State) (w : Option Text) (k : ErrorKind) : (s.raise w k).e = s.e := rfl
@[simp] theorem State.raise_mem (s : State) (w : Option Text) (k : ErrorKind) : (s.raise w k).mem = s.mem := rfl
@[simp] theorem State.raise_mode (s : State) (w : Option Text) (k : ErrorKind) : (s.raise w k).mode = .stopped := rfl
@[simp] theorem State.raise_lastError (s : State) (w : Option Text) (k : ErrorKind) : (s.raise w k).lastError = some { address := s.pc, word := w, kind := k } := rfl
@[simp] theorem State.raise_outLog (s : State) (w : Option Text) (k : ErrorKind) : (s.raise w k).outLog = s.outLog := rfl
@[simp] theorem State.raise_inputCount (s : State) (w : Option Text) (k : ErrorKind) : (s.raise w k).inputCount = s.inputCount := rfl
@[simp] theorem State.raise_pending (s : State) (w : Option Text) (k : ErrorKind) : (s.raise w k).pending = s.pending := rfl
@[simp] theorem State.raise_replies (s : State) (w : Option Text) (k : ErrorKind) : (s.raise w k).replies = s.replies := rfl

@[simp] theorem State.clearError_ac (s : State) : (s.clearError).ac = s.ac := rfl
@[simp] theorem State.clearError_pc (s : State) : (s.clearError).pc = s.pc := rfl
@[simp] theorem State.clearError_ar (s : State) : (s.clearError).ar = s.ar := rfl
@[simp] theorem State.clearError_ir (s : State) : (s.clearError).ir = s.ir := rfl
@[simp] theorem State.clearError_e (s : State) : (s.clearError).e = s.e := rfl
@[simp] theorem State.clearError_mem (s : State) : (s.clearError).mem = s.mem := rfl
@[simp] theorem State.clearError_mode (s : State) : (s.clearError).mode = s.mode := rfl
@[simp] theorem State.clearError_lastError (s : State) : (s.clearError).lastError = none := rfl
@[simp] theorem State.clearError_outLog (s : State) : (s.clearError).outLog = s.outLog := rfl
@[simp] theorem State.clearError_inputCount (s : State) : (s.clearError).inputCount = s.inputCount := rfl
@[simp] theorem State.clearError_pending (s : State) : (s.clearError).pending = s.pending := rfl
@[simp] theorem State.clearError_replies (s : State) : (s.clearError).replies = s.replies := rfl

@[simp] theorem State.reply_ac (s : State) (r : HostReply) : (s.reply r).ac = s.ac := rfl
@[simp] theorem State.reply_pc (s : State) (r : HostReply) : (s.reply r).pc = s.pc := rfl
@[simp] theorem State.reply_ar (s : State) (r : HostReply) : (s.reply r).ar = s.ar := rfl
@[simp] theorem State.reply_ir (s : State) (r : HostReply) : (s.reply r).ir = s.ir := rfl
@[simp] theorem State.reply_e (s : State) (r : HostReply) : (s.reply r).e = s.e := rfl
@[simp] theorem State.reply_mem (s : State) (r : HostReply) : (s.reply r).mem = s.mem := rfl
@[simp] theorem State.reply_mode (s : State) (r : HostReply) : (s.reply r).mode = s.mode := rfl
@[simp] theorem State.reply_lastError (s : State) (r : HostReply) : (s.reply r).lastError = s.lastError := rfl
@[simp] theorem State.reply_outLog (s : State) (r : HostReply) : (s.reply r).outLog = s.outLog := rfl
@[simp] theorem State.reply_inputCount (s : State) (r : HostReply) : (s.reply r).inputCount = s.inputCount := rfl
@[simp] theorem State.reply_pending (s : State) (r : HostReply) : (s.reply r).pending = s.pending := rfl
@[simp] theorem State.reply_replies (s : State) (r : HostReply) : (s.reply r).replies = s.replies ++ [r] := rfl

@[simp] theorem State.report_ac (s : State) : (s.report).ac = s.ac := rfl
@[simp] theorem State.report_pc (s : State) : (s.report).pc = s.pc := rfl
@[simp] theorem State.report_ar (s : State) : (s.report).ar = s.ar := rfl
@[simp] theorem State.report_ir (s : State) : (s.report).ir = s.ir := rfl
@[simp] theorem State.report_e (s : State) : (s.report).e = s.e := rfl
@[simp] theorem State.report_mem (s : State) : (s.report).mem = s.mem := rfl
@[simp] theorem State.report_mode (s : State) : (s.report).mode = s.mode := rfl
@[simp] theorem State.report_lastError (s : State) : (s.report).lastError = s.lastError := rfl
@[simp] theorem State.report_outLog (s : State) : (s.report).outLog = s.outLog := rfl
@[simp] theorem State.report_inputCount (s : State) : (s.report).inputCount = s.inputCount := rfl
@[simp] theorem State.report_pending (s : State) : (s.report).pending = s.pending := rfl
@[simp] theorem State.report_replies (s : State) : (s.report).replies = s.replies ++ [.report s.mode s.lastError] := rfl

end Sys2Proof.Machine
end

