-- ==== Sys2Proof/Laws/Ops.lean ====
section
/-! SUPPORT. What each shared operation can do, said once: the address check, the fetch, the resolution, the operand
read, and E after an addition. Provers cite these instead of unfolding the operation. -/

namespace Sys2Proof.Machine

/-! ## The address check (R32) -/

theorem checkAddr_addr (a : Addr) : checkAddr (a.val : Int) = some a := by
  have := a.isLt
  simp only [checkAddr]
  rw [dif_pos (by omega)]
  rfl

theorem checkAddr_nat {n : Nat} (h : n < 32) : checkAddr (n : Int) = some ⟨n, h⟩ := checkAddr_addr ⟨n, h⟩

theorem checkAddr_none {v : Int} : checkAddr v = none ↔ ¬(0 ≤ v ∧ v ≤ 31) := by
  simp only [checkAddr]
  split <;> simp_all

theorem checkAddr_some {v : Int} {a : Addr} : checkAddr v = some a ↔ v = (a.val : Int) := by
  constructor
  · intro h
    simp only [checkAddr] at h
    split at h
    · simp only [Option.some.injEq] at h
      subst h
      simp only
      omega
    · simp at h
  · rintro rfl
    exact checkAddr_addr a

/-! ## The fetch (R73, R74) -/

theorem withFetch_next {s : State} (h : s.pc < 32) (k : Addr → Text → Result) :
    withFetch s k = k ⟨s.pc, h⟩ (s.mem.read s.pc) := by
  simp only [withFetch, checkAddr_nat h]

theorem withFetch_error {s : State} (h : 31 < s.pc) (k : Addr → Text → Result) :
    withFetch s k = .next (s.raise none (.outOfRange s.pc)) := by
  have : checkAddr (s.pc : Int) = none := checkAddr_none.2 (by omega)
  simp only [withFetch, this]

/-- A step that fetches either takes OutOfRange or goes on with the word at PC. -/
theorem withFetch_cases {s : State} {k : Addr → Text → Result} {r : Result} (h : withFetch s k = r) :
    (31 < s.pc ∧ r = .next (s.raise none (.outOfRange s.pc))) ∨
      ∃ a : Addr, s.pc = a.val ∧ k a (s.mem.read s.pc) = r := by
  by_cases hp : s.pc < 32
  · exact .inr ⟨⟨s.pc, hp⟩, rfl, by rw [← h, withFetch_next hp]⟩
  · exact .inl ⟨by omega, by rw [← h, withFetch_error (by omega)]⟩

/-! ## Resolution and operand reads (R36, R37, R77) -/

theorem resolve_direct (m : Memory) (a : Addr) : resolve m .direct (a.val : Int) = .ok a := by
  simp only [resolve, checkAddr_addr]

theorem resolve_indirect {m : Memory} {p ea : Addr} (h : classify (m.read p) = .data (ea.val : Int)) :
    resolve m .indirect (p.val : Int) = .ok ea := by
  simp only [resolve, checkAddr_addr, pointerRead, h]

theorem resolve_outOfRange {v : Int} (m : Memory) (mode : AddrMode) (h : ¬(0 ≤ v ∧ v ≤ 31)) :
    resolve m mode v = .error (.outOfRange v) := by
  simp only [resolve, checkAddr_none.2 h]

theorem dataRead_data {m : Memory} {a : Addr} {v : Int} (h : classify (m.read a) = .data v) :
    dataRead m a = .ok (u16 v) := by
  simp only [dataRead, h]

theorem dataRead_other {m : Memory} {a : Addr} (h : ∀ v, classify (m.read a) ≠ .data v) :
    dataRead m a = .error (.nonNumericWord a) := by
  unfold dataRead
  split
  · rfl
  · rfl
  · rename_i v hv
    exact absurd hv (h v)

theorem withAddress_next {m : AddrMode} {v : Int} {s : State} {ea : Addr} (hp : s.pc < 32)
    (h : resolve s.mem m v = .ok ea) (k : Text → Addr → Result) :
    withAddress m v s k = k (s.mem.read s.pc) ea := by
  simp only [withAddress, withFetch_next hp, h]

theorem withAddress_error {m : AddrMode} {v : Int} {s : State} {e : ErrorKind} (hp : s.pc < 32)
    (h : resolve s.mem m v = .error e) (k : Text → Addr → Result) :
    withAddress m v s k = .next (s.raise (some (s.mem.read s.pc)) e) := by
  simp only [withAddress, withFetch_next hp, h]

theorem withOperand_next {m : AddrMode} {v : Int} {s : State} {ea : Addr} {x : Value} (hp : s.pc < 32)
    (h : resolve s.mem m v = .ok ea) (hx : dataRead s.mem ea = .ok x) (k : Text → Addr → Value → Result) :
    withOperand m v s k = k (s.mem.read s.pc) ea x := by
  simp only [withOperand, withAddress_next hp h, hx]

theorem withOperand_error {m : AddrMode} {v : Int} {s : State} {ea : Addr} {e : ErrorKind} (hp : s.pc < 32)
    (h : resolve s.mem m v = .ok ea) (hx : dataRead s.mem ea = .error e) (k : Text → Addr → Value → Result) :
    withOperand m v s k = .next (s.raise (some (s.mem.read s.pc)) e) := by
  simp only [withOperand, withAddress_next hp h, hx]

/-- The word an error record holds: the fetched word, none where PC lies beyond the Word Store (R25). -/
def fetchedWord (s : State) : Option Text := if s.pc < 32 then some (s.mem.read s.pc) else none

/-- An address instruction either takes an error or goes on with the fetched word and the effective address. -/
theorem withAddress_cases {m : AddrMode} {v : Int} {s : State} {k : Text → Addr → Result} {r : Result}
    (h : withAddress m v s k = r) :
    (∃ e, r = .next (s.raise (fetchedWord s) e)) ∨
      ∃ ea, s.pc < 32 ∧ resolve s.mem m v = .ok ea ∧ k (s.mem.read s.pc) ea = r := by
  by_cases hp : s.pc < 32
  · cases hr : resolve s.mem m v with
    | error e => exact .inl ⟨e, by rw [← h, withAddress_error hp hr]; simp [fetchedWord, hp]⟩
    | ok ea => exact .inr ⟨ea, hp, rfl, by rw [← h, withAddress_next hp hr]⟩
  · refine .inl ⟨.outOfRange s.pc, ?_⟩
    rw [← h, withAddress, withFetch_error (by omega)]
    simp [fetchedWord, hp]

/-- An instruction with a memory operand either takes an error or goes on with the operand's value. -/
theorem withOperand_cases {m : AddrMode} {v : Int} {s : State} {k : Text → Addr → Value → Result} {r : Result}
    (h : withOperand m v s k = r) :
    (∃ e, r = .next (s.raise (fetchedWord s) e)) ∨
      ∃ ea x, s.pc < 32 ∧ resolve s.mem m v = .ok ea ∧ dataRead s.mem ea = .ok x ∧
        k (s.mem.read s.pc) ea x = r := by
  rcases withAddress_cases h with he | ⟨ea, hp, hr, hk⟩
  · exact .inl he
  · cases hx : dataRead s.mem ea with
    | error e =>
      simp only [hx] at hk
      exact .inl ⟨e, by rw [← hk]; simp [fetchedWord, hp]⟩
    | ok x =>
      simp only [hx] at hk
      exact .inr ⟨ea, x, hp, hr, hx, hk⟩

/-! ## Arithmetic (R8, R20) -/

@[simp] theorem u16_toNat (n : Nat) (h : n < 65536) : (u16 (n : Int)).toNat = n := by
  simp [u16, Nat.mod_eq_of_lt h]

theorem u16_value (v : Value) : u16 (v.toNat : Int) = v := by
  simp [u16]

theorem u16_add (a b : Value) : u16 ((a.toNat : Int) + b.toNat) = a + b := by
  apply BitVec.eq_of_toNat_eq
  simp [u16]
  omega

theorem u16_sub (a b : Value) : u16 ((a.toNat : Int) - b.toNat) = a - b := by
  apply BitVec.eq_of_toNat_eq
  simp [u16, BitVec.toNat_sub]
  omega

theorem u16_mul (a b : Value) : u16 ((a.toNat : Int) * b.toNat) = a * b := by
  apply BitVec.eq_of_toNat_eq
  simp [u16]
  omega

theorem u16_add_nat (a : Value) (n : Nat) : u16 ((a.toNat : Int) + n) = a + BitVec.ofNat 16 n := by
  apply BitVec.eq_of_toNat_eq
  simp [u16]
  omega

theorem u16_add_one (a : Value) : u16 ((a.toNat : Int) + 1) = a + 1 := u16_add_nat a 1

theorem u16_sub_one (a : Value) : u16 ((a.toNat : Int) - 1) = a - 1 := u16_sub a 1

theorem overflowE_set {n : Nat} (e : BitVec 1) (h : 65535 < n) : overflowE n e = 1 := if_pos h

theorem overflowE_kept {n : Nat} (e : BitVec 1) (h : n ≤ 65535) : overflowE n e = e := if_neg (by omega)

theorem skipPc_le (b : Bool) (pc : Nat) : skipPc b pc ≤ pc + 2 := by
  cases b <;> simp [skipPc]

end Sys2Proof.Machine
end

