-- ==== Sys2Proof/Laws/Engine.lean ====
section
/-! SUPPORT. What an instruction and an engine step can do, said once: an error is taken, or the step's writes are
committed. The invariants follow from these without unfolding a meaning again. -/

namespace Sys2Proof.Machine

/-- What every completed step has done, whichever instruction it ran: PC was in the Word Store, IR holds the fetched
word, at most one canonical data word was written, and the error record and the host's own fields are untouched. -/
structure Completed (s t : State) : Prop where
  fetched : s.pc < 32
  ir : t.ir = s.mem.read s.pc
  pc : t.pc ≤ 33
  mem : t.mem = s.mem ∨ ∃ (a : Addr) (n : Nat), t.mem = dataWrite s.mem a n
  mode : t.mode = s.mode ∨ t.mode = .halted
  lastError : t.lastError = s.lastError
  pending : t.pending = s.pending
  replies : t.replies = s.replies

/-- A result that is a next state, reached by taking an error or by completing. -/
def Answers (s : State) (r : Result) : Prop :=
  ∃ t, r = .next t ∧ ((∃ k, t = s.raise (fetchedWord s) k) ∨ Completed s t)

theorem answers_raise {s : State} (hp : s.pc < 32) (k : ErrorKind) :
    Answers s (.next (s.raise (some (s.mem.read s.pc)) k)) :=
  ⟨_, rfl, .inl ⟨k, by simp [fetchedWord, hp]⟩⟩

theorem answers_withFetch {s : State} {k : Addr → Text → Result}
    (h : ∀ a : Addr, s.pc = a.val → Answers s (k a (s.mem.read s.pc))) : Answers s (withFetch s k) := by
  rcases withFetch_cases (rfl : withFetch s k = _) with ⟨hp, hr⟩ | ⟨a, ha, hk⟩
  · exact ⟨_, hr, .inl ⟨_, by rw [fetchedWord, if_neg (by omega)]⟩⟩
  · exact hk ▸ h a ha

theorem answers_withAddress {m : AddrMode} {v : Int} {s : State} {k : Text → Addr → Result}
    (h : s.pc < 32 → ∀ ea, Answers s (k (s.mem.read s.pc) ea)) : Answers s (withAddress m v s k) := by
  rcases withAddress_cases (rfl : withAddress m v s k = _) with ⟨e, hr⟩ | ⟨ea, hp, -, hk⟩
  · exact ⟨_, hr, .inl ⟨e, rfl⟩⟩
  · exact hk ▸ h hp ea

theorem answers_withOperand {m : AddrMode} {v : Int} {s : State} {k : Text → Addr → Value → Result}
    (h : s.pc < 32 → ∀ ea x, Answers s (k (s.mem.read s.pc) ea x)) : Answers s (withOperand m v s k) := by
  rcases withOperand_cases (rfl : withOperand m v s k = _) with ⟨e, hr⟩ | ⟨ea, x, hp, -, -, hk⟩
  · exact ⟨_, hr, .inl ⟨e, rfl⟩⟩
  · exact hk ▸ h hp ea x

/-- The writes of a step that stores nothing and keeps the mode: a completed step. -/
theorem completed_registers {s : State} (ar : Addr) {pc : Nat} (hp : s.pc < 32) (hpc : pc ≤ 33)
    (ac : Value) (e : BitVec 1) (out : List Value) (n : Nat) :
    Completed s { s.commit ar (s.mem.read s.pc) pc with ac := ac, e := e, outLog := out, inputCount := n } :=
  ⟨hp, rfl, hpc, .inl rfl, .inl rfl, rfl, rfl, rfl⟩

/-- The writes of a step that stores one data word: a completed step. -/
theorem completed_store {s : State} (ar : Addr) {pc : Nat} (hp : s.pc < 32) (hpc : pc ≤ 33) (ac : Value)
    (a : Addr) (n : Nat) :
    Completed s { s.commit ar (s.mem.read s.pc) pc with ac := ac, mem := dataWrite s.mem a n } :=
  ⟨hp, rfl, hpc, .inr ⟨a, n, rfl⟩, .inl rfl, rfl, rfl, rfl⟩

theorem skipPc_bound {s : State} (hp : s.pc < 32) (b : Bool) : skipPc b s.pc ≤ 33 := by
  have := skipPc_le b s.pc
  omega

theorem addr_bound (a : Addr) : a.val ≤ 33 := by omega

/-- Every meaning answers a next state: an error taken, or a completed step (R82, R83). -/
theorem exec_answers (i : Instr) (s : State) : Answers s (exec i s) := by
  cases i with
  | lda m a | and m a | or m a | xor m a | add m a | sub m a | mul m a =>
    simp only [exec, execLda, execAnd, execOr, execXor, execAdd, execSub, execMul]
    refine answers_withOperand fun hp ea x => ⟨_, rfl, .inr ?_⟩
    exact completed_registers ea hp (by omega) ..
  | str m a =>
    simp only [exec, execStr]
    refine answers_withAddress fun hp ea => ⟨_, rfl, .inr ?_⟩
    exact completed_store ea hp (by omega) ..
  | jmp m a =>
    simp only [exec, execJmp]
    refine answers_withAddress fun hp ea => ⟨_, rfl, .inr ?_⟩
    exact completed_registers ea hp (addr_bound ea) ..
  | jze m a =>
    simp only [exec, execJze]
    refine answers_withAddress fun hp ea => ⟨_, rfl, .inr ?_⟩
    have hpc : (if isZero s.ac then ea.val else s.pc + 1) ≤ 33 := by split <;> omega
    exact completed_registers ea hp hpc ..
  | jsa m a =>
    simp only [exec, execJsa]
    refine answers_withAddress fun hp ea => ⟨_, rfl, .inr ?_⟩
    exact completed_store ea hp (addr_bound ea) ..
  | div m a =>
    simp only [exec, execDiv]
    refine answers_withOperand fun hp ea x => ?_
    split
    · exact answers_raise hp .divisionByZero
    · refine ⟨_, rfl, .inr ?_⟩
      exact completed_registers ea hp (by omega) ..
  | inc m a | dec m a =>
    simp only [exec, execInc, execDec, writeBack]
    refine answers_withOperand fun hp ea x => ⟨_, rfl, .inr ?_⟩
    exact completed_store ea hp (skipPc_bound hp _) ..
  | cmp _ | clr | cre | cta | cte | ina | cla | cra =>
    simp only [exec, execCmp, execClr, execCre, execCta, execCte, execIna, execCla, execCra]
    refine answers_withFetch fun a ha => ⟨_, rfl, .inr ?_⟩
    exact completed_registers a (by omega) (by omega) ..
  | out | sfi | sfo | put | opt | spi | spo | sie =>
    simp only [exec, execOut, execSfi, execSfo, execPut, execOpt, execSpi, execSpo, execSie, advance]
    refine answers_withFetch fun a ha => ⟨_, rfl, .inr ?_⟩
    exact completed_registers a (by omega) (by omega) ..
  | skz | skp | skn =>
    simp only [exec, execSkz, execSkp, execSkn]
    refine answers_withFetch fun a ha => ⟨_, rfl, .inr ?_⟩
    exact completed_registers a (by omega) (skipPc_bound (by omega) _) ..
  | hal =>
    simp only [exec, execHal]
    refine answers_withFetch fun a ha => ⟨_, rfl, .inr ?_⟩
    exact ⟨by omega, rfl, by simp only [State.commit_pc]; omega, .inl rfl, .inr rfl, rfl, rfl, rfl⟩
  | inp n =>
    simp only [exec, execInp]
    refine answers_withFetch fun a ha => ?_
    cases n with
    | some x =>
      refine ⟨_, rfl, .inr ?_⟩
      exact completed_registers a (by omega) (by omega) ..
    | none =>
      refine ⟨_, rfl, .inr ?_⟩
      exact completed_registers a (by omega) (by omega) ..

/-- Every engine step answers a next state: an error taken, or a completed step (R82, R83). -/
theorem engineStep_answers (s : State) : Answers s (engineStep s) := by
  unfold engineStep
  refine answers_withFetch fun a ha => ?_
  have hp : s.pc < 32 := by omega
  cases classify (s.mem.read s.pc) with
  | empty | data v =>
    refine ⟨_, rfl, .inr ?_⟩
    exact completed_registers a hp (by omega) ..
  | instr =>
    cases hd : decode (s.mem.read s.pc) with
    | error e => simpa only [hd] using answers_raise hp (.decode e)
    | ok i => simpa only [hd] using exec_answers i s

/-! ## The invariant of an engine step -/

theorem completed_inv {s t : State} (h : Completed s t) (hs : s.Inv) (hm : s.mode = .idle ∨ s.mode = .running) :
    t.Inv := by
  refine ⟨?_, h.pc, ?_⟩
  · rcases h.mem with e | ⟨a, n, e⟩
    · exact e ▸ hs.1
    · exact e ▸ dataWrite_wf a n hs.1
  · intro he
    rw [h.lastError] at he
    rcases hm with hm | hm <;> simp [hs.2.2 he] at hm

theorem raise_inv {s : State} (w : Option Text) (k : ErrorKind) (hs : s.Inv) : (s.raise w k).Inv :=
  ⟨hs.1, hs.2.1, fun _ => rfl⟩

theorem clearError_inv {s : State} (hs : s.Inv) : s.clearError.Inv :=
  ⟨hs.1, hs.2.1, fun h => by simp at h⟩

end Sys2Proof.Machine
end

