-- ==== Sys2Proof/Laws/Lifecycle.lean ====
section
/-! SUPPORT. What a turn, a step and a run can do, said once: the result of a turn is the turn's own state with at most
one report added, and an engine step reads neither the host's turns nor its replies. -/

namespace Sys2Proof.Machine

/-! ## Changing a next state -/

@[simp] theorem onNext_next (t : State) (f : State → State) : onNext (.next t) f = .next (f t) := rfl

theorem onNext_inv {r : Result} {f : State → State} {t : State} (h : onNext r f = .next t) :
    ∃ u, r = .next u ∧ t = f u := by
  cases r with
  | next u => exact ⟨u, rfl, by simpa using h.symm⟩
  | fault x => cases x
  | refused x => cases h

/-- The fetch at a PC given as an address. -/
theorem withFetch_at {s : State} {a : Addr} (h : s.pc = a.val) (k : Addr → Text → Result) :
    withFetch s k = k a (s.mem.read s.pc) := by
  rw [withFetch_next (show s.pc < 32 by omega)]
  congr 1
  exact Fin.ext h

/-! ## The end of a run (R95, R148) -/

@[simp] theorem endRun_ac (m : Mode) (s : State) : (endRun m s).ac = s.ac := by unfold endRun; split <;> rfl
@[simp] theorem endRun_pc (m : Mode) (s : State) : (endRun m s).pc = s.pc := by unfold endRun; split <;> rfl
@[simp] theorem endRun_ar (m : Mode) (s : State) : (endRun m s).ar = s.ar := by unfold endRun; split <;> rfl
@[simp] theorem endRun_ir (m : Mode) (s : State) : (endRun m s).ir = s.ir := by unfold endRun; split <;> rfl
@[simp] theorem endRun_e (m : Mode) (s : State) : (endRun m s).e = s.e := by unfold endRun; split <;> rfl
@[simp] theorem endRun_mem (m : Mode) (s : State) : (endRun m s).mem = s.mem := by unfold endRun; split <;> rfl
@[simp] theorem endRun_mode (m : Mode) (s : State) : (endRun m s).mode = s.mode := by unfold endRun; split <;> rfl
@[simp] theorem endRun_lastError (m : Mode) (s : State) : (endRun m s).lastError = s.lastError := by
  unfold endRun; split <;> rfl
@[simp] theorem endRun_outLog (m : Mode) (s : State) : (endRun m s).outLog = s.outLog := by
  unfold endRun; split <;> rfl
@[simp] theorem endRun_inputCount (m : Mode) (s : State) : (endRun m s).inputCount = s.inputCount := by
  unfold endRun; split <;> rfl
@[simp] theorem endRun_pending (m : Mode) (s : State) : (endRun m s).pending = s.pending := by
  unfold endRun; split <;> rfl

/-- A turn that leaves the mode Running, or was not taken in Running, ends no run. -/
theorem endRun_same {m : Mode} {s : State} (h : m ≠ .running ∨ s.mode = .running) : endRun m s = s := by
  rcases h with h | h <;> simp [endRun, h]

/-- A turn taken in Running that leaves Running makes `run()` return. -/
theorem endRun_reports {s : State} (h : s.mode ≠ .running) : endRun .running s = s.report := by
  simp [endRun, h]

/-! ## One step -/

/-- With no turn of the host left, a step in Running is an engine step. -/
theorem step_running {s : State} (hm : s.mode = .running) (hp : s.pending = []) :
    step s = onNext (engineStep s) (endRun .running) := by
  simp only [step, cycle, hp, takeTurn, engineTurn, hm]

/-- A step takes the first turn of the list, or the engine's where the list is empty. -/
theorem step_turn (s : State) :
    step s = takeTurn (s.pending.head?.getD .engine) { s with pending := s.pending.tail } := by
  unfold step cycle
  split
  · rename_i h
    have : s = { s with pending := [] } := by cases s; simp_all
    simp only [h, List.head?_nil, Option.getD_none, List.tail_nil]
    rw [← this]
  · rename_i turn rest h
    simp [h]

/-- The host's `step()` in Idle and Stopped: one engine step with the record cleared, and its report (R87). -/
theorem hostStep_runs {s : State} (hm : s.mode = .idle ∨ s.mode = .stopped) :
    hostStep s = onNext (engineStep s.clearError) State.report := by
  rcases hm with h | h <;> simp only [hostStep, h]

/-- What taking an error changes: the mode and the record, and nothing else (R143). -/
theorem State.raise_eq (s : State) (w : Option Text) (k : ErrorKind) :
    s.raise w k = { s with mode := .stopped, lastError := (s.raise w k).lastError } := rfl

/-! ## Runs -/

@[simp] theorem runFor_zero (s : State) : runFor 0 s = .next s := rfl

theorem runFor_succ {k : Nat} {s t : State} (h : step s = .next t) : runFor (k + 1) s = runFor k t := by
  simp only [runFor, h]

/-! ## What an engine step can do -/

/-- The mode after an engine step. -/
theorem engineStep_mode {s t : State} (h : engineStep s = .next t) :
    t.mode = s.mode ∨ t.mode = .halted ∨ t.mode = .stopped := by
  obtain ⟨t', h1, h2⟩ := engineStep_answers s
  rw [h] at h1
  cases h1
  rcases h2 with ⟨k, rfl⟩ | hc
  · simp
  · rcases hc.mode with h | h <;> simp [h]

/-- An engine step leaves every instruction word as it was, or puts a data word there (R45, R161). -/
theorem engineStep_words {s t : State} (h : engineStep s = .next t) (a : Nat)
    (ha : classify (t.mem.read a) = .instr) : t.mem.read a = s.mem.read a := by
  obtain ⟨t', h1, h2⟩ := engineStep_answers s
  rw [h] at h1
  cases h1
  rcases h2 with ⟨k, rfl⟩ | hc
  · rfl
  · rcases hc.mem with e | ⟨b, n, e⟩
    · rw [e]
    · rw [e] at ha ⊢
      by_cases hab : a = b.val
      · rw [hab, dataWrite_read_same, classify_lit] at ha
        cases ha
      · exact dataWrite_read_other _ _ _ hab

/-- An engine step from a state of the invariant where no error is recorded keeps the invariant. -/
theorem engineStep_inv {s t : State} (hs : s.Inv) (hn : s.lastError = none) (h : engineStep s = .next t) : t.Inv := by
  obtain ⟨t', h1, h2⟩ := engineStep_answers s
  rw [h] at h1
  cases h1
  rcases h2 with ⟨k, rfl⟩ | hc
  · exact raise_inv _ _ hs
  · refine ⟨?_, hc.pc, fun he => ?_⟩
    · rcases hc.mem with e | ⟨a, n, e⟩
      · exact e ▸ hs.1
      · exact e ▸ dataWrite_wf a n hs.1
    · rw [hc.lastError, hn] at he
      cases he

theorem endRun_inv {m : Mode} {s : State} (h : s.Inv) : (endRun m s).Inv := by
  unfold endRun
  split <;> exact h

/-! ## The engine reads none of the host's fields -/

/-- The state with other turns and other replies. -/
def State.relabel (s : State) (turns : List Turn) (replies : List HostReply) : State :=
  { s with pending := turns, replies := replies }

theorem withFetch_relabel {turns : List Turn} {replies : List HostReply} {s : State} {k k' : Addr → Text → Result}
    (hk : ∀ a w, k' a w = onNext (k a w) fun t => t.relabel turns replies) :
    withFetch (s.relabel turns replies) k' = onNext (withFetch s k) fun t => t.relabel turns replies := by
  by_cases h : s.pc < 32
  · rw [withFetch_next (s := s.relabel turns replies) h, withFetch_next h]
    exact hk _ _
  · rw [withFetch_error (s := s.relabel turns replies) (by simp only [State.relabel]; omega), withFetch_error (by omega)]
    rfl

theorem withAddress_relabel {turns : List Turn} {replies : List HostReply} {s : State} {m : AddrMode} {v : Int}
    {k k' : Text → Addr → Result} (hk : ∀ w a, k' w a = onNext (k w a) fun t => t.relabel turns replies) :
    withAddress m v (s.relabel turns replies) k' = onNext (withAddress m v s k) fun t => t.relabel turns replies := by
  unfold withAddress
  refine withFetch_relabel fun a w => ?_
  show (match resolve s.mem m v with | .error kind => _ | .ok ea => _) = _
  cases resolve s.mem m v with
  | error e => rfl
  | ok ea => exact hk _ _

theorem withOperand_relabel {turns : List Turn} {replies : List HostReply} {s : State} {m : AddrMode} {v : Int}
    {k k' : Text → Addr → Value → Result} (hk : ∀ w a x, k' w a x = onNext (k w a x) fun t => t.relabel turns replies) :
    withOperand m v (s.relabel turns replies) k' = onNext (withOperand m v s k) fun t => t.relabel turns replies := by
  unfold withOperand
  refine withAddress_relabel fun w ea => ?_
  show (match dataRead s.mem ea with | .error kind => _ | .ok x => _) = _
  cases dataRead s.mem ea with
  | error e => rfl
  | ok x => exact hk _ _ _

/-- An instruction's effect does not depend on the host's turns or replies, and passes them on. -/
theorem exec_relabel (i : Instr) (turns : List Turn) (replies : List HostReply) (s : State) :
    exec i (s.relabel turns replies) = onNext (exec i s) fun t => t.relabel turns replies := by
  cases i with
  | div m p =>
    simp only [exec, execDiv]
    refine withOperand_relabel fun w a x => ?_
    split <;> rfl
  | inp n =>
    simp only [exec, execInp]
    refine withFetch_relabel fun a w => ?_
    cases n <;> rfl
  | lda m p | and m p | or m p | xor m p | add m p | sub m p | mul m p | inc m p | dec m p =>
    simp only [exec, execLda, execAnd, execOr, execXor, execAdd, execSub, execMul, execInc, execDec, writeBack]
    exact withOperand_relabel fun w a x => rfl
  | str m p | jsa m p | jmp m p | jze m p =>
    simp only [exec, execStr, execJsa, execJmp, execJze]
    exact withAddress_relabel fun w a => rfl
  | cmp _ | clr | cre | cta | cte | skz | ina | skp | skn | cla | cra | hal =>
    simp only [exec, execCmp, execClr, execCre, execCta, execCte, execSkz, execIna, execSkp, execSkn, execCla,
      execCra, execHal]
    exact withFetch_relabel fun a w => rfl
  | out | sfi | sfo | put | opt | spi | spo | sie =>
    simp only [exec, execOut, execSfi, execSfo, execPut, execOpt, execSpi, execSpo, execSie, advance]
    exact withFetch_relabel fun a w => rfl

/-- The engine reads none of the host's fields, so what the host does changes no step of a program (R86). -/
theorem engineStep_relabel (turns : List Turn) (replies : List HostReply) (s : State) :
    engineStep (s.relabel turns replies) = onNext (engineStep s) fun t => t.relabel turns replies := by
  unfold engineStep
  refine withFetch_relabel fun a w => ?_
  cases classify w with
  | empty | data v => rfl
  | instr =>
    cases decode w with
    | error e => rfl
    | ok i => exact exec_relabel i turns replies s

end Sys2Proof.Machine
end

