-- ==== Sys2Proof/Laws/PerInstr.lean ====
section
/-! SUPPORT. Statements made per instruction. Spelling: the tokens of an instruction's canonical word are the tokens
it is spelled with, so that no token of an encoding is lost, split or joined (R49, R63). -/

namespace Sys2Proof.Laws

/-- The canonical word of the instruction splits into the tokens the encoder joined. -/
def Spelling.Statement (i : Instr) : Prop := tokens (encode i) = spell i

/-- A mnemonic is a token: no character of it is whitespace. -/
theorem name_isToken (t : Text) (h : (!t.isEmpty && t.all fun c => !isSpace c) = true) : IsToken t := by
  simp only [Bool.and_eq_true, Bool.not_eq_true', List.isEmpty_eq_false_iff, List.all_eq_true] at h
  exact h

theorem spelling_address {name : Text} (h : IsToken name) (m : AddrMode) (a : Int) :
    tokens (join (spellAddress name m a)) = spellAddress name m a := by
  refine tokens_join _ fun t ht => ?_
  cases m with
  | direct =>
    simp only [spellAddress, List.mem_cons, List.not_mem_nil, or_false] at ht
    rcases ht with rfl | rfl
    · exact h
    · exact litInt_isToken a
  | indirect =>
    simp only [spellAddress, List.mem_cons, List.not_mem_nil, or_false] at ht
    rcases ht with rfl | rfl | rfl
    · exact h
    · exact name_isToken _ (by decide)
    · exact litInt_isToken a

theorem spelling_literal {name : Text} (h : IsToken name) (n : Int) :
    tokens (join [name, litInt n]) = [name, litInt n] :=
  spelling_address h .direct n

theorem spelling_bare {name : Text} (h : IsToken name) : tokens (join [name]) = [name] := tokens_single h

theorem Spelling.lda (m : AddrMode) (a : Int) : Spelling.Statement (.lda m a) :=
  spelling_address (name_isToken _ (by decide)) m a

theorem Spelling.str (m : AddrMode) (a : Int) : Spelling.Statement (.str m a) :=
  spelling_address (name_isToken _ (by decide)) m a

theorem Spelling.jmp (m : AddrMode) (a : Int) : Spelling.Statement (.jmp m a) :=
  spelling_address (name_isToken _ (by decide)) m a

theorem Spelling.jze (m : AddrMode) (a : Int) : Spelling.Statement (.jze m a) :=
  spelling_address (name_isToken _ (by decide)) m a

theorem Spelling.jsa (m : AddrMode) (a : Int) : Spelling.Statement (.jsa m a) :=
  spelling_address (name_isToken _ (by decide)) m a

theorem Spelling.and (m : AddrMode) (a : Int) : Spelling.Statement (.and m a) :=
  spelling_address (name_isToken _ (by decide)) m a

theorem Spelling.or (m : AddrMode) (a : Int) : Spelling.Statement (.or m a) :=
  spelling_address (name_isToken _ (by decide)) m a

theorem Spelling.xor (m : AddrMode) (a : Int) : Spelling.Statement (.xor m a) :=
  spelling_address (name_isToken _ (by decide)) m a

theorem Spelling.add (m : AddrMode) (a : Int) : Spelling.Statement (.add m a) :=
  spelling_address (name_isToken _ (by decide)) m a

theorem Spelling.sub (m : AddrMode) (a : Int) : Spelling.Statement (.sub m a) :=
  spelling_address (name_isToken _ (by decide)) m a

theorem Spelling.mul (m : AddrMode) (a : Int) : Spelling.Statement (.mul m a) :=
  spelling_address (name_isToken _ (by decide)) m a

theorem Spelling.div (m : AddrMode) (a : Int) : Spelling.Statement (.div m a) :=
  spelling_address (name_isToken _ (by decide)) m a

theorem Spelling.inc (m : AddrMode) (a : Int) : Spelling.Statement (.inc m a) :=
  spelling_address (name_isToken _ (by decide)) m a

theorem Spelling.dec (m : AddrMode) (a : Int) : Spelling.Statement (.dec m a) :=
  spelling_address (name_isToken _ (by decide)) m a

theorem Spelling.cmp (n : Int) : Spelling.Statement (.cmp n) := spelling_literal (name_isToken _ (by decide)) n

theorem Spelling.clr : Spelling.Statement .clr := spelling_bare (name_isToken _ (by decide))

theorem Spelling.cre : Spelling.Statement .cre := spelling_bare (name_isToken _ (by decide))

theorem Spelling.cta : Spelling.Statement .cta := spelling_bare (name_isToken _ (by decide))

theorem Spelling.cte : Spelling.Statement .cte := spelling_bare (name_isToken _ (by decide))

theorem Spelling.skz : Spelling.Statement .skz := spelling_bare (name_isToken _ (by decide))

theorem Spelling.ina : Spelling.Statement .ina := spelling_bare (name_isToken _ (by decide))

theorem Spelling.skp : Spelling.Statement .skp := spelling_bare (name_isToken _ (by decide))

theorem Spelling.skn : Spelling.Statement .skn := spelling_bare (name_isToken _ (by decide))

theorem Spelling.cla : Spelling.Statement .cla := spelling_bare (name_isToken _ (by decide))

theorem Spelling.cra : Spelling.Statement .cra := spelling_bare (name_isToken _ (by decide))

theorem Spelling.hal : Spelling.Statement .hal := spelling_bare (name_isToken _ (by decide))

theorem Spelling.inp (n : Option Int) : Spelling.Statement (.inp n) := by
  cases n with
  | none => exact spelling_bare (name_isToken _ (by decide))
  | some n => exact spelling_literal (name_isToken _ (by decide)) n

theorem Spelling.out : Spelling.Statement .out := spelling_bare (name_isToken _ (by decide))

theorem Spelling.sfi : Spelling.Statement .sfi := spelling_bare (name_isToken _ (by decide))

theorem Spelling.sfo : Spelling.Statement .sfo := spelling_bare (name_isToken _ (by decide))

theorem Spelling.put : Spelling.Statement .put := spelling_bare (name_isToken _ (by decide))

theorem Spelling.opt : Spelling.Statement .opt := spelling_bare (name_isToken _ (by decide))

theorem Spelling.spi : Spelling.Statement .spi := spelling_bare (name_isToken _ (by decide))

theorem Spelling.spo : Spelling.Statement .spo := spelling_bare (name_isToken _ (by decide))

theorem Spelling.sie : Spelling.Statement .sie := spelling_bare (name_isToken _ (by decide))

end Sys2Proof.Laws
end

