-- ==== Sys2Proof/Tests/Slice0.lean ====
section
/-! SUPPORT. The model's own tests. Every expected value is taken from spec/95_test_vectors.md (L1, L2), from the decode
table of R65 or from the rule cited; every test is one step on a small state. The witnesses at the end show, for each
statement with hypotheses, concrete values that meet all of them together. -/

namespace Sys2Proof.Tests

open Sys2Proof Sys2Proof.Machine

/-! ## Helpers -/

/-- A word written as a string. -/
def w (s : String) : Text := s.toList

/-- A Word Store with these words at these addresses. -/
def store (cells : List (Nat × String)) : Memory := cells.foldl (fun m c => m.write c.1 (w c.2)) []

/-- A running machine whose host does not act: PC, AC, E and some words, the rest as at reset. -/
def mk (pc : Nat) (ac : Value) (e : BitVec 1) (cells : List (Nat × String)) : State :=
  { State.reset with pc := pc, ac := ac, e := e, mem := store cells, mode := .running }

/-- A machine in a mode with these turns to take, the rest as at reset. -/
def inMode (m : Mode) (turns : List Turn) (cells : List (Nat × String)) : State :=
  { State.reset with mode := m, pending := turns, mem := store cells }

/-- What a next state shows, none where the answer is no next state. -/
def see {α : Type} (r : Result) (f : State → α) : Option α :=
  match r with
  | .next t => some (f t)
  | .fault _ => none
  | .refused _ => none

/-- AC, E and PC. -/
def regs (t : State) : Value × BitVec 1 × Nat := (t.ac, t.e, t.pc)

/-- AR, IR and the mode. -/
def latches (t : State) : Addr × Text × Mode := (t.ar, t.ir, t.mode)

/-- The mode, PC and the error record. -/
def outcome (t : State) : Mode × Nat × Option ErrorRecord := (t.mode, t.pc, t.lastError)

/-! ## Well-formedness: INP's literal lies in 0..2047 (R56) -/

theorem test_wf_refuses_inp_2048 : (Instr.inp (some 2048)).wf = false := by decide
theorem test_wf_refuses_inp_minus_one : (Instr.inp (some (-1))).wf = false := by decide
theorem test_wf_accepts_inp_2047 : (Instr.inp (some 2047)).wf = true := by decide
theorem test_wf_accepts_any_address : (Instr.lda .indirect (-1)).wf = true := by decide

/-! ## Decoding: every constructor from a word written out from its row (R55, R65, L2.1) -/

theorem test_decode_memory_reference_direct :
    ["LDA 5", "STR 31", "JMP 0", "JZE 7", "JSA 8", "AND 20", "OR 20", "XOR 20"].map (fun s => decode (w s)) =
      [.ok (.lda .direct 5), .ok (.str .direct 31), .ok (.jmp .direct 0), .ok (.jze .direct 7),
        .ok (.jsa .direct 8), .ok (.and .direct 20), .ok (.or .direct 20), .ok (.xor .direct 20)] := by decide

theorem test_decode_memory_reference_direct_2 :
    ["ADD 05", "SUB 9", "MUL -1", "DIV 32", "INC 20", "DEC 20", "CMP 9", "CMP -5"].map (fun s => decode (w s)) =
      [.ok (.add .direct 5), .ok (.sub .direct 9), .ok (.mul .direct (-1)), .ok (.div .direct 32),
        .ok (.inc .direct 20), .ok (.dec .direct 20), .ok (.cmp 9), .ok (.cmp (-5))] := by decide

theorem test_decode_memory_reference_indirect :
    ["LDA  I   5 ", "STR I 9", "JMP I 9", "JZE I 9", "JSA I 9", "AND I 9", "OR I 9"].map (fun s => decode (w s)) =
      [.ok (.lda .indirect 5), .ok (.str .indirect 9), .ok (.jmp .indirect 9), .ok (.jze .indirect 9),
        .ok (.jsa .indirect 9), .ok (.and .indirect 9), .ok (.or .indirect 9)] := by decide

theorem test_decode_memory_reference_indirect_2 :
    ["XOR I 9", "ADD I 9", "SUB I 9", "MUL I 9", "DIV I 9", "INC I 9", "DEC I 9"].map (fun s => decode (w s)) =
      [.ok (.xor .indirect 9), .ok (.add .indirect 9), .ok (.sub .indirect 9), .ok (.mul .indirect 9),
        .ok (.div .indirect 9), .ok (.inc .indirect 9), .ok (.dec .indirect 9)] := by decide

theorem test_decode_register_reference :
    ["CLR", "CRE", "CTA", "CTE", "SKZ", "INA", "SKP", "SKN", "CLA", "CRA", "HAL"].map (fun s => decode (w s)) =
      [.ok .clr, .ok .cre, .ok .cta, .ok .cte, .ok .skz, .ok .ina, .ok .skp, .ok .skn, .ok .cla, .ok .cra,
        .ok .hal] := by decide

theorem test_decode_io_reference :
    ["INP", "INP 0", "INP 2047", "OUT", "SFI", "SFO", "PUT", "OPT", "SPI", "SPO", "SIE"].map (fun s => decode (w s)) =
      [.ok (.inp none), .ok (.inp (some 0)), .ok (.inp (some 2047)), .ok .out, .ok .sfi, .ok .sfo, .ok .put, .ok .opt,
        .ok .spi, .ok .spo, .ok .sie] := by decide

theorem test_decode_refuses_malformed :
    ["A B C D", "FOO X Y Z", "LDA i 5", "LDA X x", "LDA 5x", "CLR I 5", "INP I 5", "OUT 5", "INP -1",
        "INP 2048", "LDA", "CMP I 5"].map (fun s => decode (w s)) =
      [.tokenCount, .tokenCount, .badMarker, .badMarker, .badOperand, .shapeNotAllowed, .shapeNotAllowed,
        .shapeNotAllowed, .literalRange, .literalRange, .shapeNotAllowed, .shapeNotAllowed].map
        (fun r => .error (.malformedInstruction r)) := by decide

theorem test_decode_refuses_unknown :
    ["FOO I x", "+5", "5.0", "lda 5"].map (fun s => decode (w s)) =
      ["FOO", "+5", "5.0", "lda"].map (fun s => .error (.unknownMnemonic (w s))) := by decide

theorem test_word_classes :
    ["0", "-0", " 007 ", "70000", "-1", "+5", "5.0", "HAL", "", " \t "].map (fun s => classify (w s)) =
      [.data 0, .data 0, .data 7, .data 70000, .data (-1), .instr, .instr, .instr, .empty, .empty] := by decide

theorem test_encode :
    [encode (.lda .indirect 5), encode (.jmp .direct (-1)), encode (.inp (some 2047)), encode .hal] =
      ["LDA I 5", "JMP -1", "INP 2047", "HAL"].map w := by decide

/-! ## Words given as numbers (log 7): "CLR" and "INC I 9" -/

theorem test_number_reads_clr : decodeTableWord 24 0x524C43 = some .clr := by decide
theorem test_number_reads_inc : decodeTableWord 56 0x39204920434E49 = some (.inc .indirect 9) := by decide
theorem test_number_refuses_data : decodeTableWord 8 0x37 = none := by decide

theorem test_placed_word_runs_first :
    see (step (State.withFetchWord State.reset 24 0x524C43)) latches = some (0, w "CLR", .running) := by decide

theorem test_placed_word_beyond_the_store :
    see (step (State.withFetchWord { State.reset with pc := 33, ac := 5 } 24 0x524C43)) regs = some (0, 0, 1) := by
  decide

/-! ## Reset and boot (R154, R159) -/

theorem test_reset_idles : step State.reset = .next State.reset := by rfl

theorem test_load_then_run_starts :
    see (runFor 3 { State.reset with pending := [.host (.load [w "CLR"]), .host .run] }) latches =
      some (0, w "CLR", .running) := by decide

/-! ## Effective addresses (L2.2) -/

theorem test_pointer_out_of_range :
    see (step (mk 0 0 0 [(0, "JMP I 9"), (9, "32")])) outcome =
      some (.stopped, 0, some ⟨0, some (w "JMP I 9"), .outOfRange 32⟩) := by decide

theorem test_pointer_raw_value_is_checked :
    see (step (mk 0 0 0 [(0, "JMP I 9"), (9, "-1")])) outcome =
      some (.stopped, 0, some ⟨0, some (w "JMP I 9"), .outOfRange (-1)⟩) := by decide

theorem test_pointer_no_number :
    see (step (mk 0 0 0 [(0, "JMP I 9"), (9, "HAL")])) outcome =
      some (.stopped, 0, some ⟨0, some (w "JMP I 9"), .nonNumericWord 9⟩) := by decide

theorem test_error_codes :
    [ErrorKind.decode (.unknownMnemonic []), .decode (.malformedInstruction .tokenCount), .outOfRange 32, .divisionByZero,
      .nonNumericWord 9].map ErrorKind.code = [1, 2, 3, 4, 5] := by decide

theorem test_fetch_at_33 :
    see (step (mk 33 0 0 [])) outcome = some (.stopped, 33, some ⟨33, none, .outOfRange 33⟩) := by decide

/-! ## Memory reference (L2.3) -/

theorem test_lda_minus_one : see (step (mk 0 3 1 [(0, "LDA 9"), (9, "-1")])) regs = some (65535, 1, 1) := by decide
theorem test_lda_its_own_word :
    see (step (mk 0 3 0 [(0, "LDA 0")])) outcome =
      some (.stopped, 0, some ⟨0, some (w "LDA 0"), .nonNumericWord 0⟩) := by decide
theorem test_str_over_an_instruction :
    see (step (mk 0 65535 0 [(0, "STR 4"), (4, "HAL"), (5, "7")])) State.mem =
      some (store [(0, "STR 4"), (4, "65535"), (5, "7")]) := by decide
theorem test_str_indirect :
    see (step (mk 0 6 0 [(0, "STR I 9"), (9, "4")])) (fun t => (t.mem.read 4, t.mem.read 9, t.ar)) =
      some (w "6", w "4", 4) := by decide
theorem test_jmp_indirect_one_level :
    see (step (mk 0 0 0 [(0, "JMP I 9"), (9, "3"), (3, "7")])) (fun t => (t.pc, t.ar)) = some (3, 3) := by decide
theorem test_jze_not_taken : see (step (mk 0 0x8000 0 [(0, "JZE 7")])) regs = some (0x8000, 0, 1) := by decide
theorem test_jze_resolves_although_not_taken :
    see (step (mk 0 5 0 [(0, "JZE 40")])) outcome =
      some (.stopped, 0, some ⟨0, some (w "JZE 40"), .outOfRange 40⟩) := by decide
theorem test_jsa_at_31 :
    see (step (mk 31 0 0 [(31, "JSA 8")])) (fun t => (t.mem.read 8, t.pc)) = some (w "32", 8) := by decide
theorem test_and : see (step (mk 0 0x00FF 1 [(0, "AND 9"), (9, "4080")])) regs = some (240, 1, 1) := by decide
theorem test_or : see (step (mk 0 0x00FF 1 [(0, "OR 9"), (9, "4080")])) regs = some (4095, 1, 1) := by decide
theorem test_xor : see (step (mk 0 0x00FF 1 [(0, "XOR 9"), (9, "4080")])) regs = some (3855, 1, 1) := by decide
theorem test_add_overflows : see (step (mk 0 65535 0 [(0, "ADD 9"), (9, "1")])) regs = some (0, 1, 1) := by decide
theorem test_add_no_signed_overflow :
    see (step (mk 0 32767 0 [(0, "ADD 9"), (9, "1")])) regs = some (32768, 0, 1) := by decide
theorem test_sub_wraps : see (step (mk 0 3 0 [(0, "SUB 9"), (9, "5")])) regs = some (65534, 0, 1) := by decide
theorem test_mul_keeps_low_bits :
    see (step (mk 0 300 0 [(0, "MUL 9"), (9, "300")])) regs = some (24464, 1, 1) := by decide
theorem test_mul_sets_e_without_overflow :
    see (step (mk 0 3 0 [(0, "MUL 9"), (9, "7")])) regs = some (21, 1, 1) := by decide
theorem test_div_truncates : see (step (mk 0 65535 0 [(0, "DIV 9"), (9, "256")])) regs = some (255, 0, 1) := by decide
theorem test_div_by_zero_after_reduction :
    see (step (mk 0 9 0 [(0, "DIV 9"), (9, "65536")])) outcome =
      some (.stopped, 0, some ⟨0, some (w "DIV 9"), .divisionByZero⟩) := by decide
theorem test_inc_wraps_and_skips :
    see (step (mk 3 7 0 [(3, "INC 20"), (20, "65535")])) (fun t => (regs t, t.mem.read 20)) =
      some ((0, 0, 5), w "0") := by decide
theorem test_inc_at_31 :
    see (step (mk 31 7 0 [(31, "INC 20"), (20, "65535")])) (fun t => t.pc) = some 33 := by decide
theorem test_dec_wraps :
    see (step (mk 3 7 0 [(3, "DEC 20"), (20, "0")])) (fun t => (regs t, t.mem.read 20)) =
      some ((65535, 0, 4), w "65535") := by decide
theorem test_dec_skips_on_zero :
    see (step (mk 3 7 0 [(3, "DEC 20"), (20, "1")])) (fun t => (regs t, t.mem.read 20)) =
      some ((0, 0, 5), w "0") := by decide
theorem test_cmp_is_not_resolved :
    see (step (mk 2 5 1 [(2, "CMP 40")])) (fun t => (regs t, t.ar)) = some ((5, 1, 3), 2) := by decide

/-! ## Register reference (L2.4) -/

theorem test_clr : see (step (mk 0 1234 1 [(0, "CLR")])) regs = some (0, 1, 1) := by decide
theorem test_cre : see (step (mk 0 5 1 [(0, "CRE")])) regs = some (5, 0, 1) := by decide
theorem test_cta : see (step (mk 0 0x8000 1 [(0, "CTA")])) regs = some (0x7FFF, 1, 1) := by decide
theorem test_cte_sets : see (step (mk 0 5 0 [(0, "CTE")])) regs = some (5, 1, 1) := by decide
theorem test_cte_clears : see (step (mk 0 5 1 [(0, "CTE")])) regs = some (5, 0, 1) := by decide
theorem test_skz_at_31 : see (step (mk 31 0 0 [(31, "SKZ")])) regs = some (0, 0, 33) := by decide
theorem test_skz_not_taken : see (step (mk 4 0x8000 0 [(4, "SKZ")])) regs = some (0x8000, 0, 5) := by decide
theorem test_ina_overflows : see (step (mk 0 65535 0 [(0, "INA")])) regs = some (0, 1, 1) := by decide
theorem test_ina_keeps_e : see (step (mk 0 41 1 [(0, "INA")])) regs = some (42, 1, 1) := by decide
theorem test_skp_positive :
    [0, 1, 0x7FFF, 0x8000, 0xFFFF].map (fun a => see (step (mk 4 a 0 [(4, "SKP")])) (fun t => t.pc)) =
      [some 5, some 6, some 6, some 5, some 5] := by decide
theorem test_skn_negative :
    [0, 1, 0x7FFF, 0x8000, 0xFFFF].map (fun a => see (step (mk 4 a 0 [(4, "SKN")])) (fun t => t.pc)) =
      [some 5, some 5, some 5, some 6, some 6] := by decide
theorem test_cla_rotates : see (step (mk 0 0x8000 0 [(0, "CLA")])) regs = some (0x0001, 0, 1) := by decide
theorem test_cra_rotates : see (step (mk 0 0x0001 0 [(0, "CRA")])) regs = some (0x8000, 0, 1) := by decide
theorem test_hal :
    see (step (mk 3 0 0 [(3, "HAL")])) (fun t => (latches t, t.pc)) = some ((3, w "HAL", .halted), 3) := by decide

/-! ## I/O reference (L2.5) -/

theorem test_inp_literal : see (step (mk 0 65000 0 [(0, "INP 1000")])) regs = some (464, 0, 1) := by decide
/-- The answer is a free value; what the rule fixes is E, PC and that one answer is drawn (R130). -/
theorem test_inp_draws_one :
    see (step (mk 0 10 1 [(0, "INP")])) (fun t => (t.e, t.pc, t.inputCount)) = some (1, 1, 1) := by decide
theorem test_out :
    see (step (mk 0 65534 0 [(0, "OUT")])) (fun t => (t.ac, t.outLog)) = some (65534, [65534]) := by decide
theorem test_handshakes_only_advance :
    ["SFI", "SFO", "PUT", "OPT", "SPI", "SPO", "SIE"].map (fun s => see (step (mk 7 0 1 [(7, s)]))
        (fun t => (regs t, t.ar, t.outLog.isEmpty))) =
      List.replicate 7 (some ((0, 1, 8), 7, true)) := by decide

/-! ## Lifecycle (L2.6) -/

theorem test_host_step_keeps_idle :
    see (step (inMode .idle [.host .step] [(0, "CLR")])) (fun t => (t.mode, t.pc, t.replies)) =
      some (.idle, 1, [.report .idle none]) := by decide
theorem test_load_keeps_pc_and_leaves_halted :
    see (step { inMode .halted [.host (.load [w "CLR"])] [(3, "HAL")] with pc := 3 })
        (fun t => (t.mode, t.pc, t.mem)) = some (.idle, 3, store [(0, "CLR")]) := by decide
theorem test_load_of_33_words_is_refused :
    see (step (inMode .idle [.host (.load (List.replicate 33 (w "CLR")))] [(3, "HAL")]))
        (fun t => (t.mem, t.replies)) = some (store [(3, "HAL")], [.loadFailed]) := by decide
theorem test_reset_keeps_the_output_log :
    see (step { inMode .stopped [.host .reset] [(3, "HAL")] with outLog := [7], ac := 7 })
        (fun t => (t.mode, t.ac, t.mem.isEmpty, t.outLog)) = some (.idle, 0, true, [7]) := by decide

/-! ## Witnesses: the hypotheses of each statement, met together by concrete values

Each is about one statement of Certificates/Slice0/Obligations.lean and bears its name; a statement of several clauses
has a witness for each, at the ends of its range. -/

/-- A class that is not a data word's. -/
theorem not_data {t : Text} (h : classify t = .empty ∨ classify t = .instr) : ∀ v, classify t ≠ .data v := by
  intro v
  rcases h with h | h <;> simp [h]

/-- PC at the last address, a pointer at 0 and an operand at 9. -/
def last (word : String) : State := mk 31 65535 1 [(0, "9"), (9, "65535"), (31, word)]

theorem witness_DecodeOfEncodeIsIdentity :
    (Instr.inp (some 0)).wf = true ∧ (Instr.inp (some 2047)).wf = true ∧ (Instr.dec .indirect (-1)).wf = true := by
  decide

theorem witness_DecodedInstructionsAreWellFormed : decode (w "INP 2047") = .ok (.inp (some 2047)) := by decide

theorem witness_SurroundingWhitespaceIsIgnored :
    (∀ c ∈ [' ', '\t'], c ∈ [' ', '\t', '\n', Char.ofNat 11, Char.ofNat 12, '\r']) ∧
      ∀ c ∈ [Char.ofNat 11, '\r', '\n'], c ∈ [' ', '\t', '\n', Char.ofNat 11, Char.ofNat 12, '\r'] := by simp

theorem witness_NumberTextsAreSignedDigitRuns :
    (∀ c ∈ ['0', '0', '9'], '0' ≤ c ∧ c ≤ '9') ∧ num ['0', '0', '9'] = some 9 ∧
      (∀ c ∈ ['0'], '0' ≤ c ∧ c ≤ '9') ∧ num ['0'] = some 0 := by
  refine ⟨fun c hc => ?_, by decide, fun c hc => ?_, by decide⟩ <;>
    · simp only [List.mem_cons, List.not_mem_nil, or_false, or_self_left] at hc
      rcases hc with rfl | rfl <;> exact ⟨by simp, by simp⟩

theorem witness_CanonicalLiteralReadsBack : (lit 0).head? = some '0' := by decide

/-- One word for each check of the decoder, in the order of the clauses. -/
theorem witness_DecodeChecksInOrder :
    (tokens (w "A B C D") = [w "A", w "B", w "C", w "D"] ∧ 3 ≤ [w "B", w "C", w "D"].length) ∧
    (tokens (w "FOO I x") = [w "FOO", w "I", w "x"] ∧ lookup (w "FOO") = none) ∧
    (tokens (w "LDA X x") = [w "LDA", w "X", w "x"] ∧ lookup (w "LDA") ≠ none ∧ w "X" ≠ ['I']) ∧
    (tokens (w "CLR I 5x") = [w "CLR", w "I", w "5x"] ∧ lookup (w "CLR") ≠ none ∧ num (w "5x") = none) ∧
    (tokens (w "STR I 5") = [w "STR", w "I", w "5"] ∧ lookup (w "STR") = some (.address .str) ∧
      num (w "5") = some 5) ∧
    (tokens (w "CMP 5") = [w "CMP", w "5"] ∧ lookup (w "CMP") = some (.literal .cmp)) ∧
    (tokens (w "HAL") = [w "HAL"] ∧ lookup (w "HAL") = some (.bare .hal)) ∧
    tokens (w "INP 2048") = [w "INP", w "2048"] ∧ lookup (w "INP") = some .input ∧ num (w "2048") = some 2048 ∧
      num (w "2047") = some 2047 ∧ num (w "-1") = some (-1) := by
  refine ⟨by decide, ⟨by decide, rfl⟩, ⟨by decide, by simp [show lookup (w "LDA") = some (.address .lda) from rfl],
    by decide⟩, ⟨by decide, by simp [show lookup (w "CLR") = some (.bare .clr) from rfl], by decide⟩,
    ⟨by decide, rfl, by decide⟩, ⟨by decide, rfl⟩, ⟨by decide, rfl⟩, by decide, rfl, by decide⟩

/-- The ends of the address range, directly and through a pointer, and the values beside them. -/
theorem witness_ResolutionGivesTheEffectiveAddress :
    ((-1 : Int) < 0 ∧ (31 : Int) < 32) ∧
    classify ((store [(0, "31")]).read (0 : Addr)) = .data ((31 : Addr).val : Int) ∧
    classify ((store [(31, "0")]).read (31 : Addr)) = .data ((0 : Addr).val : Int) ∧
    classify ((store [(31, "32")]).read (31 : Addr)) = .data 32 ∧
    classify ((store [(0, "-1")]).read (0 : Addr)) = .data (-1) ∧
    (∀ v, classify ((store [(31, "HAL")]).read (31 : Addr)) ≠ .data v) ∧
    ∀ v, classify ((store []).read (0 : Addr)) ≠ .data v :=
  ⟨by decide, by decide, by decide, by decide, by decide, not_data (.inr (by decide)), not_data (.inl (by decide))⟩

theorem witness_OperandReadReducesModulo65536 :
    classify ((store [(31, "65536")]).read (31 : Addr)) = .data 65536 ∧
    classify ((store [(0, "-1")]).read (0 : Addr)) = .data (-1) ∧
    ∀ v, classify ((store [(9, "HAL")]).read (9 : Addr)) ≠ .data v :=
  ⟨by decide, by decide, not_data (.inr (by decide))⟩

theorem witness_AddressErrorsAreTaken :
    (Instr.jze .direct 32).address? = some (.direct, 32) ∧ (last "JZE 32").pc < 32 ∧
      resolve (last "JZE 32").mem .direct 32 = .error (.outOfRange 32) := by decide

theorem witness_NonNumericOperandIsTaken :
    Instr.dec .direct 31 ∈ [Instr.lda .direct 31, .and .direct 31, .or .direct 31, .xor .direct 31, .add .direct 31,
      .sub .direct 31, .mul .direct 31, .div .direct 31, .inc .direct 31, .dec .direct 31] ∧
    (last "DEC 31").pc < 32 ∧ resolve (last "DEC 31").mem .direct 31 = .ok 31 ∧
    ∀ v, classify ((last "DEC 31").mem.read (31 : Addr)) ≠ .data v :=
  ⟨by decide, by decide, by decide, not_data (.inr (by decide))⟩

theorem witness_FetchAndDecodeErrorsAreTaken :
    31 < (mk 32 0 0 []).pc ∧ (last "CLR 5").pc < 32 ∧
      classify ((last "CLR 5").mem.read (last "CLR 5").pc) = .instr ∧
      decode ((last "CLR 5").mem.read (last "CLR 5").pc) = .error (.malformedInstruction .shapeNotAllowed) := by decide

theorem witness_UnknownMnemonicIsRecorded :
    (last "FOO I x").pc < 32 ∧ classify ((last "FOO I x").mem.read (last "FOO I x").pc) = .instr ∧
      tokens ((last "FOO I x").mem.read (last "FOO I x").pc) = [w "FOO", w "I", w "x"] ∧
      [w "I", w "x"].length ≤ 2 ∧ w "FOO" ∉ opcodeTable.map Prod.fst := by decide

theorem witness_FailingStepCommitsNothing :
    (mk 33 7 0 []).lastError = none ∧
      engineStep (mk 33 7 0 []) = .next ((mk 33 7 0 []).raise none (.outOfRange 33)) ∧
      ((mk 33 7 0 []).raise none (.outOfRange 33)).lastError = some ⟨33, none, .outOfRange 33⟩ :=
  ⟨rfl, rfl, rfl⟩

theorem witness_InstructionErrorsByKind :
    (last "DIV 8").pc < 32 ∧ (last "DIV 8").lastError = none ∧
      exec (.div .direct 8) (last "DIV 8") =
        .next ((last "DIV 8").raise (some ((last "DIV 8").mem.read 31)) (.nonNumericWord 8)) ∧
      ((last "DIV 8").raise (some ((last "DIV 8").mem.read 31)) (.nonNumericWord 8)).lastError =
        some ⟨31, some ((last "DIV 8").mem.read 31), .nonNumericWord 8⟩ :=
  ⟨by decide, rfl, rfl, rfl⟩

theorem witness_LdaLoadsOperand :
    (last "LDA I 0").pc < 32 ∧ resolve (last "LDA I 0").mem .indirect 0 = .ok 9 ∧
      dataRead (last "LDA I 0").mem 9 = .ok 65535 := by decide

theorem witness_StrStoresAccumulator :
    (last "STR 31").pc < 32 ∧ resolve (last "STR 31").mem .direct 31 = .ok 31 := by decide

theorem witness_JmpSetsPc : (last "JMP I 0").pc < 32 ∧ resolve (last "JMP I 0").mem .indirect 0 = .ok 9 := by decide

theorem witness_JzeJumpsOnZero :
    (mk 31 0 0 [(31, "JZE 0")]).pc < 32 ∧ resolve (mk 31 0 0 [(31, "JZE 0")]).mem .direct 0 = .ok 0 := by decide

theorem witness_JsaSavesReturnAddress :
    (last "JSA 0").pc < 32 ∧ resolve (last "JSA 0").mem .direct 0 = .ok 0 := by decide

theorem witness_LogicInstructionsCombineBitwise :
    (last "AND 9").pc < 32 ∧ resolve (last "AND 9").mem .direct 9 = .ok 9 ∧
      dataRead (last "AND 9").mem 9 = .ok 65535 := by decide

theorem witness_AddWrapsAndSetsE :
    (last "ADD 9").pc < 32 ∧ resolve (last "ADD 9").mem .direct 9 = .ok 9 ∧
      dataRead (last "ADD 9").mem 9 = .ok 65535 ∧ 65535 < (last "ADD 9").ac.toNat + (65535 : Value).toNat := by decide

theorem witness_SubWraps :
    (mk 0 0 0 [(9, "65535")]).pc < 32 ∧ resolve (mk 0 0 0 [(9, "65535")]).mem .direct 9 = .ok 9 ∧
      dataRead (mk 0 0 0 [(9, "65535")]).mem 9 = .ok 65535 := by decide

theorem witness_MulKeepsLowBitsAndSetsE :
    (last "MUL I 0").pc < 32 ∧ resolve (last "MUL I 0").mem .indirect 0 = .ok 9 ∧
      dataRead (last "MUL I 0").mem 9 = .ok 65535 := by decide

/-- A divisor of 65535, and one of 65536, which reads as 0. -/
theorem witness_DivDividesOrRaises :
    ((last "DIV 9").pc < 32 ∧ resolve (last "DIV 9").mem .direct 9 = .ok 9 ∧
      dataRead (last "DIV 9").mem 9 = .ok 65535 ∧ (65535 : Value) ≠ 0) ∧
    (mk 31 9 0 [(9, "65536")]).pc < 32 ∧ resolve (mk 31 9 0 [(9, "65536")]).mem .direct 9 = .ok 9 ∧
      dataRead (mk 31 9 0 [(9, "65536")]).mem 9 = .ok 0 := by decide

theorem witness_IncDecWriteBackAndSkipOnZero :
    ((last "INC 9").pc < 32 ∧ resolve (last "INC 9").mem .direct 9 = .ok 9 ∧
      dataRead (last "INC 9").mem 9 = .ok 65535) ∧
    (mk 31 9 0 [(9, "1")]).pc < 32 ∧ resolve (mk 31 9 0 [(9, "1")]).mem .direct 9 = .ok 9 ∧
      dataRead (mk 31 9 0 [(9, "1")]).mem 9 = .ok 1 := by decide

theorem witness_CmpChangesNothing : (last "CMP 40").pc = (31 : Addr).val := by decide

theorem witness_ClearAndComplementE : (last "CTE").pc < 32 := by decide

theorem witness_CtaComplements : (last "CTA").pc = (31 : Addr).val := by decide

theorem witness_InaIncrements : (last "INA").pc < 32 ∧ 65535 < (last "INA").ac.toNat + 1 := by decide

theorem witness_RotatesByOne : (last "CLA").pc < 32 := by decide

/-- AC zero, positive and negative at the ends of its range. -/
theorem witness_SkipInstructionsTestAccumulator :
    (mk 31 0 0 []).pc = (31 : Addr).val ∧ (mk 31 0 0 []).ac.toInt = 0 ∧ 0 < (mk 0 0x7FFF 0 []).ac.toInt ∧
      (mk 0 0x8000 0 []).ac.toInt < 0 ∧ (mk 0 0x8000 0 []).pc = (0 : Addr).val := by decide

theorem witness_HalHalts : (last "HAL").pc = (31 : Addr).val := by decide

theorem witness_InpAddsInput : (last "INP 2047").pc = (31 : Addr).val ∧ 0 ≤ 2047 ∧ 2047 ≤ 2047 := by decide

theorem witness_OutAppendsAccumulator : (last "OUT").pc = (31 : Addr).val := by decide

theorem witness_HandshakesOnlyAdvance :
    Instr.sie ∈ [Instr.sfi, .sfo, .put, .opt, .spi, .spo, .sie] ∧ (last "SIE").pc = (31 : Addr).val := by decide

/-- With no turn left, and with the engine's turn next. -/
theorem witness_StepRunsTheDecodedInstruction :
    ((last "HAL").mode = .running ∧ (last "HAL").pc < 32 ∧
      classify ((last "HAL").mem.read (last "HAL").pc) = .instr ∧
      decode ((last "HAL").mem.read (last "HAL").pc) = .ok .hal ∧ (last "HAL").pending = []) ∧
    (inMode .running [.engine, .host .stop] [(0, "HAL")]).mode = .running ∧
      (inMode .running [.engine, .host .stop] [(0, "HAL")]).pending = [.engine, .host .stop] ∧
      decode ((inMode .running [.engine, .host .stop] [(0, "HAL")]).mem.read 0) = .ok .hal := by decide

/-- An empty word at 31 with no turn left, a data word at 0 with the engine's turn next, and the host's `step()` in Idle
and in Stopped. -/
theorem witness_StepSkipsEmptyAndDataWords :
    ((mk 31 0 0 []).pc = (31 : Addr).val ∧ classify ((mk 31 0 0 []).mem.read (mk 31 0 0 []).pc) ≠ .instr ∧
      (mk 31 0 0 []).mode = .running ∧ (mk 31 0 0 []).pending = []) ∧
    ((inMode .running [.engine] [(0, "7")]).pc = (0 : Addr).val ∧
      classify ((inMode .running [.engine] [(0, "7")]).mem.read 0) ≠ .instr ∧
      (inMode .running [.engine] [(0, "7")]).mode = .running ∧
      (inMode .running [.engine] [(0, "7")]).pending = [.engine]) ∧
    ∀ m ∈ [Mode.idle, .stopped], (inMode m [.host .step] [(0, "7")]).pc = (0 : Addr).val ∧
      classify ((inMode m [.host .step] [(0, "7")]).mem.read 0) ≠ .instr ∧
      (inMode m [.host .step] [(0, "7")]).mode = m ∧
      (inMode m [.host .step] [(0, "7")]).pending = [.host .step] := by decide

theorem witness_InstructionWriteMatrix :
    exec .clr (last "CLR") = .next { (last "CLR").commit 31 ((last "CLR").mem.read 31) 32 with ac := 0 } := by rfl

theorem witness_NoRunCreatesAnInstruction :
    (∀ ws, Turn.host (.load ws) ∉ (inMode .idle [.host .run] [(0, "CLR")]).pending) ∧
      runFor 1 (inMode .idle [.host .run] [(0, "CLR")]) = .next (inMode .running [] [(0, "CLR")]) ∧
      classify ((inMode .running [] [(0, "CLR")]).mem.read 0) = .instr :=
  ⟨by simp [inMode], rfl, by decide⟩

/-- The invariant at the far end: PC 33 in Running, and an error record in Stopped. -/
theorem witness_EveryStepKeepsTheInvariant :
    (mk 33 0 0 [(31, "SKZ")]).Inv ∧
      step (mk 33 0 0 [(31, "SKZ")]) =
        .next ((mk 33 0 0 [(31, "SKZ")]).raise none (.outOfRange 33)).report ∧
      ((mk 33 0 0 [(31, "SKZ")]).raise none (.outOfRange 33)).Inv := by
  refine ⟨⟨by decide, by decide, by decide⟩, rfl, ⟨by decide, by decide, by decide⟩⟩

theorem witness_PcReaches33OnlyBySkipAt31 :
    (mk 31 0 0 [(31, "SKZ")]).pc ≤ 31 ∧ see (engineStep (mk 31 0 0 [(31, "SKZ")])) State.pc = some 33 := by decide

/-- All four modes. -/
theorem witness_RunCommandStartsTheEngine :
    [Mode.idle, .stopped, .running, .halted].map (fun m => (inMode m [.host .run] []).pending) =
      List.replicate 4 [.host .run] := by decide

theorem witness_HostStepRunsExactlyOneStep :
    [Mode.idle, .stopped, .running, .halted].map (fun m => (inMode m [.host .step, .engine] []).pending) =
      List.replicate 4 [.host .step, .engine] := by decide

/-- Loads of 32 and of 33 words. -/
theorem witness_LoadReplacesTheWordStore :
    (inMode .running [.host (.load (List.replicate 32 (w "7")))] []).pending =
        [.host (.load (List.replicate 32 (w "7")))] ∧
      (List.replicate 32 (w "7")).length ≤ 32 ∧
      (inMode .idle [.host (.load (List.replicate 33 (w "7")))] []).pending =
        [.host (.load (List.replicate 33 (w "7")))] ∧
      32 < (List.replicate 33 (w "7")).length :=
  ⟨rfl, by decide, rfl, by decide⟩

theorem witness_ResetClearsAllButTheOutputLog :
    (inMode .halted [.host .reset] []).pending = [.host .reset] ∧
      (inMode .running [.host .reset, .engine] []).pending = [.host .reset, .engine] := by decide

/-- One state for each of the two operations. -/
theorem witness_DumpReturnsWordsInAddressOrder :
    (inMode .running [.host .dump] [(0, "7"), (31, "HAL")]).pending = [.host .dump] ∧
      (inMode .halted [.host .registers] []).pending = [.host .registers] := by decide

theorem witness_HaltedIsTerminal :
    (inMode .halted [.host .run, .host .stop, .engine] []).mode = .halted ∧
      ∀ turn ∈ (inMode .halted [.host .run, .host .stop, .engine] []).pending,
        turn ≠ .host .reset ∧ ∀ ws, turn ≠ .host (.load ws) := by
  simp [inMode]

theorem witness_ModeFollowsTheTransitionTable :
    see (step (inMode .running [.engine] [(0, "HAL")])) State.mode = some .halted ∧
      see (step (inMode .stopped [.host .step] [(0, "CLR")])) State.mode = some .stopped := by decide

theorem witness_StopThenRunResumes :
    ((inMode .running [.host .stop, .host .run] []).mode = .running ∧
      (inMode .running [.host .stop, .host .run] []).lastError = none ∧
      (inMode .running [.host .stop, .host .run] []).pending = [.host .stop, .host .run]) ∧
    (inMode .halted [.host .stop] []).mode ≠ .running ∧
      (inMode .halted [.host .stop] []).pending = [.host .stop] := by decide

theorem witness_ErrorRepeatsOnReentry :
    (inMode .running [.engine, .host .run, .engine] [(0, "DIV 9"), (9, "0")]).mode = .running ∧
      (inMode .running [.engine, .host .run, .engine] [(0, "DIV 9"), (9, "0")]).lastError = none ∧
      (inMode .running [.engine, .host .run, .engine] [(0, "DIV 9"), (9, "0")]).pending =
        [.engine, .host .run, .engine] ∧
      see (step (inMode .running [.engine, .host .run, .engine] [(0, "DIV 9"), (9, "0")])) State.lastError =
        some (some ⟨0, some (w "DIV 9"), .divisionByZero⟩) := by decide

theorem witness_RunningOffTheEndRaisesOutOfRange :
    ((mk 30 0 0 [(0, "HAL"), (31, "7")]).mode = .running ∧ (mk 30 0 0 [(0, "HAL"), (31, "7")]).pending = [] ∧
      (mk 30 0 0 [(0, "HAL"), (31, "7")]).pc ≤ 32 ∧
      ∀ a, 30 ≤ a → a < 32 → classify ((mk 30 0 0 [(0, "HAL"), (31, "7")]).mem.read a) ≠ .instr) ∧
    (mk 32 0 0 []).mode = .running ∧ (mk 32 0 0 []).pending = [] ∧ (mk 32 0 0 []).pc ≤ 32 := by
  refine ⟨⟨rfl, rfl, by decide, fun a h1 h2 => ?_⟩, rfl, rfl, by decide⟩
  obtain rfl | rfl : a = 30 ∨ a = 31 := by omega
  · decide
  · decide

theorem witness_StoreThenLoadGivesTheStoredValue :
    (mk 30 65535 0 [(0, "31")]).pc < 31 ∧ resolve (mk 30 65535 0 [(0, "31")]).mem .indirect 0 = .ok 31 ∧
      see (exec (.str .indirect 0) (mk 30 65535 0 [(0, "31")])) (fun t => resolve t.mem .direct 31) =
        some (.ok 31) := by decide

theorem witness_SubroutineCallAndReturn :
    (mk 30 0 0 []).pc < 31 ∧ resolve (mk 30 0 0 []).mem .direct 31 = .ok 31 ∧
      see (exec (.jsa .direct 31) (mk 30 0 0 [])) (fun t => (t.pc, t.mem.read 31)) = some (31, w "31") := by decide

/-- One step for each of the four outcomes. -/
theorem witness_EngineStepHasOneOfFourOutcomes :
    (mk 31 0 0 []).mode ≠ .halted ∧ (mk 31 0 0 []).lastError = none ∧
      see (engineStep (mk 31 0 0 [])) (stepOutcome (mk 31 0 0 [])) = some .skipped ∧
      see (engineStep (last "CLR")) (stepOutcome (last "CLR")) = some .executed ∧
      see (engineStep (last "HAL")) (stepOutcome (last "HAL")) = some .halted ∧
      see (engineStep (last "DIV 8")) (stepOutcome (last "DIV 8")) = some (.faulted (.nonNumericWord 8)) := by decide

end Sys2Proof.Tests
end

/-! PROOFS. The opcode table of R2: the mnemonics of each class, and which tokens have a row. -/

namespace Sys2Proof.Proofs

/-- The memory-reference mnemonics, in R2's order. -/
theorem memoryTable_mnemonics :
    memoryTable.map Prod.fst =
      ["LDA", "STR", "JMP", "JZE", "JSA", "AND", "OR", "XOR", "ADD", "SUB", "MUL", "DIV", "INC", "DEC", "CMP"].map
        String.toList := rfl

/-- The register-reference mnemonics, in R2's order. -/
theorem registerTable_mnemonics :
    registerTable.map Prod.fst =
      ["CLR", "CRE", "CTA", "CTE", "SKZ", "INA", "SKP", "SKN", "CLA", "CRA", "HAL"].map String.toList := rfl

/-- The I/O-reference mnemonics, in R2's order. -/
theorem ioTable_mnemonics :
    ioTable.map Prod.fst = ["INP", "OUT", "SFI", "SFO", "PUT", "OPT", "SPI", "SPO", "SIE"].map String.toList := rfl

/-- No mnemonic names two rows, within a class or across classes. -/
theorem opcodeTable_mnemonics_nodup : (opcodeTable.map Prod.fst).Nodup := by decide

/-- `lookup` misses exactly the tokens that are no mnemonic, whatever the rows hold. -/
theorem lookup_eq_none_iff (m : Text) : lookup m = none ↔ m ∉ opcodeTable.map Prod.fst := by
  have no_row : lookup m = none ↔ ∀ row ∈ opcodeTable, row.1 ≠ m := by
    simp only [lookup, Option.map_eq_none_iff, List.find?_eq_none, decide_eq_true_eq, ne_eq]
  rw [no_row, List.mem_map]
  constructor
  · rintro h ⟨row, hrow, hm⟩
    exact h row hrow hm
  · intro h row hrow hm
    exact h ⟨row, hrow, hm⟩

/-- Settles O1: the classes' rows are read off the table, and `lookup` finds a row exactly for the listed tokens. -/
theorem opcodeTableNamesThirtyFiveMnemonics : Obligations.OpcodeTableNamesThirtyFiveMnemonics :=
  ⟨memoryTable_mnemonics, registerTable_mnemonics, ioTable_mnemonics, rfl, rfl, opcodeTable_mnemonics_nodup,
    lookup_eq_none_iff⟩

end Sys2Proof.Proofs

/-! PROOFS. The register-reference instructions CLR, CRE, CTE, INA, CLA and CRA (R118, R119, R121, R123, R126, R127):
each has the one word of its name, and from a fetched word writes AC and E and advances PC. -/

namespace Sys2Proof.Proofs

open Sys2Proof.Machine

/-! ## One-token words -/

/-- A mnemonic whose row takes no operand is itself a word of the row's instruction (R50, R55). -/
theorem decode_of_bare_row {name : Text} {i : Instr} (hname : IsToken name) (hrow : lookup name = some (.bare i)) :
    decode name = .ok i := by
  simp only [decode, tokens_single hname, hrow, decodeBare]

/-! ## Writing AC and E, and advancing -/

/-- The step these six instructions share: fetch, commit to the next address, and write AC and E. -/
def writeAcE (ac : Value) (e : BitVec 1) (s : State) : Result :=
  withFetch s fun a w => .next { s.commit a w (s.pc + 1) with ac := ac, e := e }

/-- Where PC is an address the step goes on, and beside AC, E and PC it can change only AR and IR. -/
theorem writeAcE_next {s : State} (hp : s.pc < 32) (ac : Value) (e : BitVec 1) :
    ∃ t, writeAcE ac e s = .next t ∧ t = { s with ac := ac, e := e, pc := s.pc + 1, ar := t.ar, ir := t.ir } :=
  ⟨_, withFetch_next hp _, rfl⟩

theorem exec_clr (s : State) : exec .clr s = writeAcE 0 s.e s := rfl

theorem exec_cre (s : State) : exec .cre s = writeAcE s.ac 0 s := rfl

theorem xor_one_eq_ite (e : BitVec 1) : e ^^^ 1 = if e = 1 then 0 else 1 := by
  obtain rfl | rfl := BitVec.eq_zero_or_eq_one e
  · rfl
  · rfl

/-- The handler's `E ^ 1` is the complement of the one bit. -/
theorem exec_cte (s : State) : exec .cte s = writeAcE s.ac (if s.e = 1 then 0 else 1) s := by
  rw [← xor_one_eq_ite]
  rfl

/-- The reduction of the handler's sum is 16-bit addition; E looks at the sum before it. -/
theorem exec_ina (s : State) : exec .ina s = writeAcE (s.ac + 1) (overflowE (s.ac.toNat + 1) s.e) s := by
  rw [← u16_add_one]
  rfl

/-- The handler's two shifts, by 1 and by 15, are the library's rotation. -/
theorem exec_cla (s : State) : exec .cla s = writeAcE (s.ac.rotateLeft 1) s.e s := by
  rw [BitVec.rotateLeft_def]
  rfl

/-- As `exec_cla`, to the right. -/
theorem exec_cra (s : State) : exec .cra s = writeAcE (s.ac.rotateRight 1) s.e s := by
  rw [BitVec.rotateRight_def]
  rfl

/-- Settles O31: the three handlers write AC and E as stated, and such a step changes nothing else. -/
theorem clearAndComplementE : Obligations.ClearAndComplementE := by
  refine ⟨decode_of_bare_row (Laws.name_isToken _ (by decide)) rfl,
    decode_of_bare_row (Laws.name_isToken _ (by decide)) rfl,
    decode_of_bare_row (Laws.name_isToken _ (by decide)) rfl, fun s hp => ⟨?_, ?_, ?_⟩⟩
  · rw [exec_clr]
    exact writeAcE_next hp 0 s.e
  · rw [exec_cre]
    exact writeAcE_next hp s.ac 0
  · rw [exec_cte]
    exact writeAcE_next hp s.ac _

/-- Settles O33: the sum wraps as 16-bit addition does, and `overflowE` is E's clause. -/
theorem inaIncrements : Obligations.InaIncrements := by
  refine ⟨decode_of_bare_row (Laws.name_isToken _ (by decide)) rfl, fun s hp => ?_⟩
  rw [exec_ina]
  exact writeAcE_next hp _ _

/-! ## Rotations of a bit vector of any width -/

section Rotations

variable {w : Nat}

/-- Counted from the most significant bit, a left rotation adds its amount to the index modulo the width, so amounts
add up. -/
theorem rotateLeft_rotateLeft (x : BitVec w) (m n : Nat) :
    (x.rotateLeft m).rotateLeft n = x.rotateLeft (m + n) := by
  apply BitVec.eq_of_getMsbD_eq
  intro i hi
  have index_lt : (n + i) % w < w := Nat.mod_lt _ (by omega)
  simp only [BitVec.getMsbD_rotateLeft, hi, index_lt, decide_true, Bool.true_and, Nat.add_mod_mod, Nat.add_assoc]

theorem rotateLeft_zero (x : BitVec w) : x.rotateLeft 0 = x := by
  simp [BitVec.rotateLeft_def, BitVec.ushiftRight_eq_zero]

theorem rotateLeft_width (x : BitVec w) : x.rotateLeft w = x := by
  rw [← BitVec.rotateLeft_mod_eq_rotateLeft, Nat.mod_self, rotateLeft_zero]

theorem iterate_rotateLeft_one (x : BitVec w) (k : Nat) :
    (fun u : BitVec w => u.rotateLeft 1)^[k] x = x.rotateLeft k := by
  induction k with
  | zero => exact (rotateLeft_zero x).symm
  | succ k ih => rw [Function.iterate_succ_apply', ih, rotateLeft_rotateLeft]

/-- The two shifts of the definitions change places. -/
theorem rotateRight_eq_rotateLeft {n : Nat} (x : BitVec w) (hpos : 0 < n) (hn : n < w) :
    x.rotateRight n = x.rotateLeft (w - n) := by
  rw [BitVec.rotateRight_def, BitVec.rotateLeft_def, Nat.mod_eq_of_lt hn, Nat.mod_eq_of_lt (by omega),
    Nat.sub_sub_self hn.le, BitVec.or_comm]

theorem rotateRight_rotateLeft {n : Nat} (x : BitVec w) (hpos : 0 < n) (hn : n < w) :
    (x.rotateLeft n).rotateRight n = x := by
  rw [rotateRight_eq_rotateLeft _ hpos hn, rotateLeft_rotateLeft, Nat.add_sub_cancel' hn.le, rotateLeft_width]

theorem rotateLeft_rotateRight {n : Nat} (x : BitVec w) (hpos : 0 < n) (hn : n < w) :
    (x.rotateRight n).rotateLeft n = x := by
  rw [rotateRight_eq_rotateLeft _ hpos hn, rotateLeft_rotateLeft, Nat.sub_add_cancel hn.le, rotateLeft_width]

theorem iterate_rotateLeft_width (x : BitVec w) : (fun u : BitVec w => u.rotateLeft 1)^[w] x = x := by
  rw [iterate_rotateLeft_one, rotateLeft_width]

/-- As many right rotations undo as many left ones, and those were the identity. -/
theorem iterate_rotateRight_width (x : BitVec w) (hw : 1 < w) : (fun u : BitVec w => u.rotateRight 1)^[w] x = x := by
  have undoes : Function.LeftInverse (fun u : BitVec w => u.rotateRight 1) (fun u => u.rotateLeft 1) :=
    fun u => rotateRight_rotateLeft u Nat.one_pos hw
  calc (fun u : BitVec w => u.rotateRight 1)^[w] x
      = (fun u : BitVec w => u.rotateRight 1)^[w] ((fun u => u.rotateLeft 1)^[w] x) := by
        rw [iterate_rotateLeft_width]
    _ = x := undoes.iterate w x

end Rotations

/-- Settles O34: the handlers rotate AC and keep E; a left rotation adds up to the whole width, and the right rotation
is its inverse. -/
theorem rotatesByOne : Obligations.RotatesByOne := by
  refine ⟨decode_of_bare_row (Laws.name_isToken _ (by decide)) rfl,
    decode_of_bare_row (Laws.name_isToken _ (by decide)) rfl, fun v => ⟨?_, ?_, ?_, ?_⟩, fun s hp => ⟨?_, ?_⟩⟩
  · exact iterate_rotateLeft_width v
  · exact iterate_rotateRight_width v (by decide)
  · exact rotateRight_rotateLeft v (by decide) (by decide)
  · exact rotateLeft_rotateRight v (by decide) (by decide)
  · rw [exec_cla]
    exact writeAcE_next hp _ s.e
  · rw [exec_cra]
    exact writeAcE_next hp _ s.e

end Sys2Proof.Proofs

/-! PROOFS. Decode errors (R52, R141, R143): which one the decoder gives an unknown mnemonic, and what the engine step
that fetched such a word records. -/

namespace Sys2Proof.Proofs

open Sys2Proof.Machine

/-- With 1 to 3 tokens the mnemonic is the first check to fail, whatever the marker and the operand are (R52, R58). -/
theorem decode_of_lookup_none {word m : Text} {rest : List Text} (htokens : tokens word = m :: rest)
    (hlen : rest.length ≤ 2) (hrow : lookup m = none) : decode word = .error (.unknownMnemonic m) := by
  match rest, hlen with
  | [], _ => simp only [decode, htokens, hrow]
  | [_], _ => simp only [decode, htokens, hrow]
  | [_, _], _ => simp only [decode, htokens, hrow]

/-- A fetched instruction word that does not decode raises its decode error (R76, R143). -/
theorem engineStep_of_decode_error {s : State} {e : DecodeError} (hp : s.pc < 32)
    (hclass : classify (s.mem.read s.pc) = .instr) (herr : decode (s.mem.read s.pc) = .error e) :
    engineStep s = .next (s.raise (some (s.mem.read s.pc)) (.decode e)) := by
  rw [engineStep, withFetch_next hp]
  simp only [hclass, herr]

/-- Settles O16: the first token has no row, so the decoder rejects it by name, and the step raises that error. -/
theorem unknownMnemonicIsRecorded : Obligations.UnknownMnemonicIsRecorded := by
  intro s m rest hp hclass htokens hlen hunknown
  have herr := decode_of_lookup_none htokens hlen ((lookup_eq_none_iff m).2 hunknown)
  exact ⟨_, engineStep_of_decode_error hp hclass herr, State.raise_lastError s _ _⟩

end Sys2Proof.Proofs

/-! PROOFS. Numbers and words (R9, R47, R48): which texts are numbers, canonical literals, and whitespace around a
word. -/

namespace Sys2Proof.Proofs

/-! ## Numbers -/

/-- The bounds of a digit as characters and as code points. -/
theorem isDigits_iff (t : Text) : IsDigits t ↔ t ≠ [] ∧ ∀ c ∈ t, '0' ≤ c ∧ c ≤ '9' := Iff.rfl

theorem digitVal_isSome_iff (c : Char) : (digitVal c).isSome = true ↔ 48 ≤ c.toNat ∧ c.toNat ≤ 57 := by
  simp [digitVal, Option.isSome_ite]

theorem digitsValue_isSome_iff (t : Text) (acc : Nat) :
    (digitsValue acc t).isSome = true ↔ ∀ c ∈ t, 48 ≤ c.toNat ∧ c.toNat ≤ 57 := by
  induction t generalizing acc with
  | nil => simp [digitsValue]
  | cons c cs ih =>
    rw [List.forall_mem_cons, ← digitVal_isSome_iff, digitsValue]
    cases digitVal c with
    | none => simp
    | some d => simp [ih]

theorem natNum_isSome_iff (t : Text) : (natNum t).isSome = true ↔ IsDigits t := by
  cases t with
  | nil => simp [natNum, IsDigits]
  | cons c cs => simp only [natNum, digitsValue_isSome_iff, IsDigits, ne_eq, reduceCtorEq, not_false_eq_true, true_and]

theorem num_isSome_iff (t : Text) : (num t).isSome = true ↔ IsDigits t ∨ ∃ ds, t = '-' :: ds ∧ IsDigits ds := by
  cases t with
  | nil => simp [num, IsDigits]
  | cons c cs =>
    by_cases hc : c = '-'
    · subst hc
      have minus_no_digit : ¬IsDigits ('-' :: cs) := fun h => absurd (h.2 '-' (by simp)).1 (by decide)
      simp [num, natNum_isSome_iff, minus_no_digit]
    · simp [num, hc, natNum_isSome_iff]

/-- A minus sign before a run of digits negates its value. -/
theorem num_minus {ds : Text} (h : IsDigits ds) : num ('-' :: ds) = (num ds).map fun v => -v := by
  rw [num_of_isDigits h, num, if_pos rfl, Option.map_map]
  rfl

/-- A number is one token: a sign and digits hold no whitespace. -/
theorem isToken_of_num {t : Text} {v : Int} (h : num t = some v) : IsToken t := by
  rcases (num_isSome_iff t).1 (by simp [h]) with hds | ⟨ds, rfl, hds⟩
  · exact hds.isToken
  · refine ⟨by simp, fun c hc => ?_⟩
    rcases List.mem_cons.1 hc with rfl | hc
    · decide
    · exact hds.isToken.2 c hc

/-- Settles O5: `num` reads exactly the digit runs with an optional sign. -/
theorem numberTextsAreSignedDigitRuns : Obligations.NumberTextsAreSignedDigitRuns := by
  refine ⟨fun t => ?_, fun ds v hds hv => ?_⟩
  · simp only [num_isSome_iff, isDigits_iff]
    constructor
    · rintro (⟨hne, hds⟩ | ⟨ds, rfl, hne, hds⟩)
      · exact ⟨t, hne, hds, .inl rfl⟩
      · exact ⟨ds, hne, hds, .inr rfl⟩
    · rintro ⟨ds, hne, hds, rfl | rfl⟩
      · exact .inl ⟨hne, hds⟩
      · exact .inr ⟨ds, rfl, hne, hds⟩
  · have hne : ds ≠ [] := (isToken_of_num hv).1
    rw [num_minus ((isDigits_iff ds).2 ⟨hne, hds⟩), hv]
    rfl

/-! ## Canonical literals -/

theorem digitsValue_zeros (k : Nat) : digitsValue 0 (List.replicate k '0') = some 0 := by
  induction k with
  | zero => rfl
  | succ k ih => exact ih

/-- Leading zeros leave a digit run's value as it is. -/
theorem num_zeros_append {t : Text} (h : IsDigits t) (k : Nat) : num (List.replicate k '0' ++ t) = num t := by
  have hzeros : IsDigits (List.replicate k '0' ++ t) := by
    refine ⟨by simp [h.1], fun c hc => ?_⟩
    rcases List.mem_append.1 hc with hc | hc
    · rw [List.eq_of_mem_replicate hc]
      decide
    · exact h.2 c hc
  rw [num_of_isDigits hzeros, num_of_isDigits h, natNum_of_isDigits hzeros, natNum_of_isDigits h,
    digitsValue_append, digitsValue_zeros, Option.bind_some]

theorem digitChar_eq_zero {d : Nat} (hd : d < 10) (h : digitChar d = '0') : d = 0 := by
  have hval := digitVal_digitChar hd
  rw [h] at hval
  exact (Option.some.inj hval).symm

/-- The first digit of a number of two digits or more is that of its tenth, so it is no zero. -/
theorem eq_zero_of_litFuel_head (fuel n : Nat) (h : n < fuel) (hhead : (litFuel fuel n).head? = some '0') : n = 0 := by
  induction fuel generalizing n with
  | zero => omega
  | succ fuel ih =>
    rw [litFuel] at hhead
    split at hhead
    · rename_i hn
      exact digitChar_eq_zero hn (Option.some.inj hhead)
    · rename_i hn
      rw [List.head?_append_of_ne_nil _ (litFuel_isDigits fuel (n / 10) (by omega)).1] at hhead
      have := ih (n / 10) (by omega) hhead
      omega

/-- Settles O6: the digits of `lit n` read back as `n`, and the first of them is 0 for `n = 0` alone. -/
theorem canonicalLiteralReadsBack : Obligations.CanonicalLiteralReadsBack := by
  refine fun n => ⟨classify_lit n, ((isDigits_iff _).1 (lit_isDigits n)).2, fun hhead => ?_, fun k => ?_⟩
  · obtain rfl : n = 0 := eq_zero_of_litFuel_head _ n (by omega) hhead
    exact ⟨rfl, rfl⟩
  · rw [num_zeros_append (lit_isDigits n), num_lit]

/-! ## Word classes -/

theorem classify_of_trim_nil {w : Text} (h : trim w = []) : classify w = .empty := by
  simp [classify, h]

theorem classify_of_num {w : Text} {v : Int} (h : num (trim w) = some v) : classify w = .data v := by
  have hne : trim w ≠ [] := (isToken_of_num h).1
  simp [classify, h, hne]

theorem classify_of_num_none {w : Text} (hne : trim w ≠ []) (h : num (trim w) = none) : classify w = .instr := by
  simp [classify, h, hne]

/-- Settles O7: of the three classes exactly one is met, by the trimmed word being empty, a number or neither. -/
theorem wordClassIsDecidedByTrimAndNumber : Obligations.WordClassIsDecidedByTrimAndNumber := by
  intro w
  by_cases hnil : trim w = []
  · simp [classify_of_trim_nil hnil, hnil, num]
  · cases hnum : num (trim w) with
    | none => simp [classify_of_num_none hnil hnum, hnil]
    | some v => simp [classify_of_num hnum, hnil]

/-! ## Whitespace around a word -/

theorem trimLeft_spaces_append {u : Text} (hu : ∀ c ∈ u, isSpace c = true) (w : Text) :
    trimLeft (u ++ w) = trimLeft w := by
  induction u with
  | nil => rfl
  | cons c cs ih =>
    rw [List.forall_mem_cons] at hu
    rw [List.cons_append, trimLeft, if_pos hu.1, ih hu.2]

theorem trimRight_spaces {u : Text} (hu : ∀ c ∈ u, isSpace c = true) : trimRight u = [] := by
  induction u with
  | nil => rfl
  | cons c cs ih =>
    rw [List.forall_mem_cons] at hu
    simp [trimRight, hu.1, ih hu.2]

theorem trimRight_append_spaces {u : Text} (hu : ∀ c ∈ u, isSpace c = true) (w : Text) :
    trimRight (w ++ u) = trimRight w := by
  induction w with
  | nil => exact trimRight_spaces hu
  | cons c cs ih => simp only [List.cons_append, trimRight, ih]

theorem trim_append_spaces {u : Text} (hu : ∀ c ∈ u, isSpace c = true) (w : Text) : trim (w ++ u) = trim w := by
  induction w with
  | nil =>
    have := trimLeft_spaces_append hu []
    rw [List.append_nil] at this
    rw [List.nil_append, trim, this]
    rfl
  | cons c cs ih =>
    by_cases hc : isSpace c = true
    · simpa only [trim, List.cons_append, trimLeft, if_pos hc] using ih
    · simpa only [trim, List.cons_append, trimLeft, if_neg hc] using trimRight_append_spaces hu (c :: cs)

/-- A word's class is read off the trimmed word. -/
theorem classify_congr {w u : Text} (h : trim w = trim u) : classify w = classify u := by
  simp only [classify, h]

/-- A word's tokens are those of the trimmed word. -/
theorem tokens_congr {w u : Text} (h : trim w = trim u) : tokens w = tokens u := by
  rw [← tokens_trim w, h, tokens_trim]

/-- The six whitespace characters of R9. -/
theorem isSpace_of_mem : ∀ c ∈ [' ', '\t', '\n', Char.ofNat 11, Char.ofNat 12, '\r'], isSpace c = true := by
  simp [isSpace]

/-- Settles O4: such a word has the same trimmed form, which decides its class, its tokens and its decoding. -/
theorem surroundingWhitespaceIsIgnored : Obligations.SurroundingWhitespaceIsIgnored := by
  intro before w after hbefore hafter
  have htrim : trim (before ++ w ++ after) = trim w := by
    rw [trim_append_spaces fun c hc => isSpace_of_mem c (hafter c hc), trim,
      trimLeft_spaces_append fun c hc => isSpace_of_mem c (hbefore c hc), trim]
  exact ⟨classify_congr htrim, tokens_congr htrim, decode_congr (tokens_congr htrim)⟩

end Sys2Proof.Proofs

/-! PROOFS. The decoder (R58): the result of each of its checks, what a decoded word is, and the way back from an
instruction's canonical word (R63). -/

namespace Sys2Proof.Proofs

section Checks

variable {word m : Text}

/-! ## The checks in their order -/

theorem decode_of_many_tokens {rest : List Text} (ht : tokens word = m :: rest) (hlen : 3 ≤ rest.length) :
    decode word = .error (.malformedInstruction .tokenCount) := by
  match rest, hlen with
  | _ :: _ :: _ :: _, _ => simp only [decode, ht]

theorem decode_of_other_marker {k x : Text} (ht : tokens word = [m, k, x]) (hrow : lookup m ≠ none)
    (hk : k ≠ ['I']) : decode word = .error (.malformedInstruction .badMarker) := by
  obtain ⟨shape, hshape⟩ := Option.ne_none_iff_exists'.1 hrow
  simp only [decode, ht, hshape, if_pos hk]

theorem decodeOperand_of_num {x : Text} {n : Int} (hx : num x = some n) : decodeOperand x = .ok n := by
  simp only [decodeOperand, hx]

theorem decodeOperand_of_num_none {x : Text} (hx : num x = none) :
    decodeOperand x = .error (.malformedInstruction .badOperand) := by
  simp only [decodeOperand, hx]

theorem decode_of_bad_operand {rest : List Text} {x : Text} (ht : tokens word = m :: rest)
    (hrest : rest = [x] ∨ rest = [['I'], x]) (hrow : lookup m ≠ none) (hx : num x = none) :
    decode word = .error (.malformedInstruction .badOperand) := by
  obtain ⟨shape, hshape⟩ := Option.ne_none_iff_exists'.1 hrow
  rcases hrest with rfl | rfl
  · simp only [decode, ht, hshape, decodeOperand_of_num_none hx]
  · simp only [decode, ht, hshape, decodeOperand_of_num_none hx, ne_eq, not_true_eq_false, if_false]

/-! ## The three formats, once every check before the shape has passed -/

variable {shape : Shape} {x : Text} {n : Int}

theorem decode_one_token (ht : tokens word = [m]) (hrow : lookup m = some shape) : decode word = decodeBare shape := by
  simp only [decode, ht, hrow]

theorem decode_two_tokens (ht : tokens word = [m, x]) (hrow : lookup m = some shape) (hx : num x = some n) :
    decode word = decodeDirect n shape := by
  simp only [decode, ht, hrow, decodeOperand_of_num hx]

theorem decode_three_tokens (ht : tokens word = [m, ['I'], x]) (hrow : lookup m = some shape) (hx : num x = some n) :
    decode word = decodeIndirect n shape := by
  simp only [decode, ht, hrow, decodeOperand_of_num hx, ne_eq, not_true_eq_false, if_false]

end Checks

/-- Settles O8: one lemma per check, then the three formats with the row's shape. -/
theorem decodeChecksInOrder : Obligations.DecodeChecksInOrder := by
  intro w m rest ht
  refine ⟨decode_of_many_tokens ht, decode_of_lookup_none ht, ?marker, ?operand, ?address, ?literal, ?bare, ?input⟩
  case marker =>
    rintro k x rfl hrow hk
    exact decode_of_other_marker ht hrow hk
  case operand =>
    intro x hrest hrow hx
    exact decode_of_bad_operand ht hrest hrow hx
  case address =>
    refine fun build hrow => ⟨?_, ?_, ?_⟩
    · rintro rfl
      exact decode_one_token ht hrow
    · rintro x n hx rfl
      exact decode_two_tokens ht hrow hx
    · rintro x n hx rfl
      exact decode_three_tokens ht hrow hx
  case literal =>
    refine fun build hrow => ⟨?_, ?_, ?_⟩
    · rintro rfl
      exact decode_one_token ht hrow
    · rintro x n hx rfl
      exact decode_two_tokens ht hrow hx
    · rintro x n hx rfl
      exact decode_three_tokens ht hrow hx
  case bare =>
    refine fun i hrow => ⟨?_, ?_⟩
    · rintro rfl
      exact decode_one_token ht hrow
    · rintro x n hx (rfl | rfl)
      · exact decode_two_tokens ht hrow hx
      · exact decode_three_tokens ht hrow hx
  case input =>
    refine fun hrow => ⟨?_, ?_, ?_⟩
    · rintro rfl
      exact decode_one_token ht hrow
    · rintro x n hx rfl
      have hdec := decode_two_tokens ht hrow hx
      exact ⟨fun hn => hdec.trans (if_pos hn), fun hn => hdec.trans (if_neg hn)⟩
    · rintro x n hx rfl
      exact decode_three_tokens ht hrow hx

/-! ## What a decoded word is -/

/-- The instruction is one that a row of this shape gives, with no operand, a direct or an indirect one. -/
def Builds (shape : Shape) (i : Instr) : Prop :=
  decodeBare shape = .ok i ∨ ∃ n, decodeDirect n shape = .ok i ∨ decodeIndirect n shape = .ok i

/-- A decoded word starts with a mnemonic, and its instruction is one the mnemonic's row gives. -/
theorem decode_ok_cases {w : Text} {i : Instr} (h : decode w = .ok i) :
    ∃ m rest shape, tokens w = m :: rest ∧ lookup m = some shape ∧ Builds shape i := by
  unfold decode at h
  split at h
  · rename_i m ht
    cases hrow : lookup m with
    | none => simp [hrow] at h
    | some shape => exact ⟨m, _, shape, ht, hrow, .inl (by simpa only [hrow] using h)⟩
  · rename_i m x ht
    cases hrow : lookup m with
    | none => simp [hrow] at h
    | some shape =>
      cases hx : decodeOperand x with
      | error e => simp [hrow, hx] at h
      | ok n => exact ⟨m, _, shape, ht, hrow, .inr ⟨n, .inl (by simpa only [hrow, hx] using h)⟩⟩
  · rename_i m k x ht
    cases hrow : lookup m with
    | none => simp [hrow] at h
    | some shape =>
      by_cases hk : k = ['I']
      · cases hx : decodeOperand x with
        | error e => simp [hrow, hk, hx] at h
        | ok n =>
          refine ⟨m, _, shape, ht, hrow, .inr ⟨n, .inr ?_⟩⟩
          simpa only [hrow, hx, hk, ne_eq, not_true_eq_false, if_false] using h
      · simp [hrow, hk] at h
  · cases h

theorem mem_of_lookup {m : Text} {shape : Shape} (h : lookup m = some shape) : (m, shape) ∈ opcodeTable := by
  obtain ⟨row, hfind, rfl⟩ := Option.map_eq_some_iff.1 h
  have hm : row.1 = m := by simpa using List.find?_some hfind
  exact hm ▸ List.mem_of_find?_eq_some hfind

/-- Every instruction a row's shape takes over as it is, or builds from an operand, is well formed. -/
def ShapeWf : Shape → Prop
  | .address build => ∀ m n, (build m n).wf = true
  | .literal build => ∀ n, (build n).wf = true
  | .bare i => i.wf = true
  | .input => True

theorem opcodeTable_shapeWf : ∀ row ∈ opcodeTable, ShapeWf row.2 := by
  simp [opcodeTable, memoryTable, registerTable, ioTable, ShapeWf, Instr.wf]

/-- INP's row gives `INP` and, after the range check, `INP n`; every other row gives what its shape holds. -/
theorem wf_of_builds {shape : Shape} {i : Instr} (hs : ShapeWf shape) (h : Builds shape i) : i.wf = true := by
  cases shape with
  | address build =>
    rcases h with h | ⟨n, h | h⟩
    · cases h
    · cases h
      exact hs _ _
    · cases h
      exact hs _ _
  | literal build =>
    rcases h with h | ⟨n, h | h⟩
    · cases h
    · cases h
      exact hs _
    · cases h
  | bare i =>
    rcases h with h | ⟨n, h | h⟩
    · cases h
      exact hs
    · cases h
    · cases h
  | input =>
    rcases h with h | ⟨n, h | h⟩
    · cases h
      rfl
    · rw [decodeDirect] at h
      split at h
      · rename_i hn
        cases h
        simpa [Instr.wf] using hn
      · cases h
    · cases h

/-- Settles O3: the rows build well-formed instructions only, and INP's literal is checked. -/
theorem decodedInstructionsAreWellFormed : Obligations.DecodedInstructionsAreWellFormed := by
  intro w i h
  obtain ⟨m, rest, shape, -, hrow, hbuilds⟩ := decode_ok_cases h
  exact wf_of_builds (opcodeTable_shapeWf _ (mem_of_lookup hrow)) hbuilds

/-- No mnemonic is a number. -/
theorem opcodeTable_num_none : ∀ m ∈ opcodeTable.map Prod.fst, num m = none := by decide

/-- Only instruction words decode (R59): an empty word has no token, and the one token of a data word is no mnemonic. -/
theorem classify_of_decode_ok {w : Text} {i : Instr} (h : decode w = .ok i) : classify w = .instr := by
  obtain ⟨m, rest, shape, ht, hrow, -⟩ := decode_ok_cases h
  rw [← tokens_trim] at ht
  have hne : trim w ≠ [] := by
    intro hnil
    rw [hnil] at ht
    cases ht
  refine classify_of_num_none hne ?_
  cases hnum : num (trim w) with
  | none => rfl
  | some v =>
    rw [tokens_single (isToken_of_num hnum)] at ht
    obtain ⟨rfl, -⟩ := List.cons.inj ht
    rw [opcodeTable_num_none _ (List.mem_map_of_mem (mem_of_lookup hrow))] at hnum
    cases hnum

/-! ## The way back from the canonical word -/

/-- The spelling of every instruction survives the encoder (the laws of Laws/PerInstr.lean together). -/
theorem tokens_encode (i : Instr) : tokens (encode i) = spell i := by
  cases i with
  | lda m a | str m a | jmp m a | jze m a | jsa m a | and m a | or m a =>
    exact Laws.spelling_address (Laws.name_isToken _ (by decide)) m a
  | xor m a | add m a | sub m a | mul m a | div m a | inc m a | dec m a =>
    exact Laws.spelling_address (Laws.name_isToken _ (by decide)) m a
  | cmp n => exact Laws.Spelling.cmp n
  | inp n => exact Laws.Spelling.inp n
  | clr | cre | cta | cte | skz | ina | skp | skn | cla | cra | hal | out | sfi | sfo | put | opt | spi | spo | sie =>
    exact Laws.spelling_bare (Laws.name_isToken _ (by decide))

theorem decode_spellAddress {w name : Text} {build : AddrMode → Int → Instr} {m : AddrMode} {a : Int}
    (ht : tokens w = spellAddress name m a) (hrow : lookup name = some (.address build)) :
    decode w = .ok (build m a) := by
  cases m with
  | direct => exact decode_two_tokens ht hrow (num_litInt a)
  | indirect => exact decode_three_tokens ht hrow (num_litInt a)

theorem decode_encode {i : Instr} (h : i.wf = true) : decode (encode i) = .ok i := by
  have ht := tokens_encode i
  cases i with
  | lda m a | str m a | jmp m a | jze m a | jsa m a | and m a | or m a => exact decode_spellAddress ht rfl
  | xor m a | add m a | sub m a | mul m a | div m a | inc m a | dec m a => exact decode_spellAddress ht rfl
  | cmp n => exact decode_two_tokens ht rfl (num_litInt n)
  | inp n =>
    cases n with
    | none => exact decode_one_token ht rfl
    | some n =>
      have hn : 0 ≤ n ∧ n ≤ Config.inputMax := by simpa [Instr.wf] using h
      exact (decode_two_tokens ht rfl (num_litInt n)).trans (if_pos hn)
  | clr | cre | cta | cte | skz | ina | skp | skn | cla | cra | hal => exact decode_one_token ht rfl
  | out | sfi | sfo | put | opt | spi | spo | sie => exact decode_one_token ht rfl

/-- Settles O2: the canonical word's tokens are the spelling, each row reads its own spelling back, and a word that
decodes is an instruction word. -/
theorem decodeOfEncodeIsIdentity : Obligations.DecodeOfEncodeIsIdentity :=
  fun _ h => ⟨classify_of_decode_ok (decode_encode h), decode_encode h⟩

/-- Settles O9: each word's tokens and its row are evaluated. -/
theorem decodeExamplesOfTheSpec : Obligations.DecodeExamplesOfTheSpec := by
  refine ⟨?_, ?_, ?_, ?_, ?_, ?_⟩
  · exact decode_two_tokens (m := "LDA".toList) (x := "5".toList) rfl rfl rfl
  · exact decode_three_tokens (m := "JMP".toList) (x := "9".toList) rfl rfl rfl
  · exact decode_one_token (m := "HAL".toList) rfl rfl
  · exact decode_two_tokens (m := "INP".toList) (x := "2047".toList) rfl rfl rfl
  · exact decode_two_tokens (m := "INP".toList) (x := "2048".toList) rfl rfl rfl
  · exact decode_two_tokens (m := "CMP".toList) (x := "70000".toList) rfl rfl rfl

end Sys2Proof.Proofs

/-! PROOFS. What a turn at a suspension point can do (R84, R86), said once, and what every step keeps. -/

namespace Sys2Proof.Proofs

open Sys2Proof.Machine

/-! ## One turn -/

/-- All that a turn taken in `s` can do, before the report that ends a run: run an engine step, act as the host
operation says, or keep everything but the replies where the transition table lets the mode stay. -/
inductive TurnEffect (s : State) : Turn → State → Prop
  | ran {t : State} (hm : s.mode = .running) (ht : engineStep s = .next t) : TurnEffect s .engine t
  | stepped {t : State} (hm : s.mode = .idle ∨ s.mode = .stopped) (ht : engineStep s.clearError = .next t) :
      TurnEffect s (.host .step) t.report
  | started (hm : s.mode = .idle ∨ s.mode = .stopped) :
      TurnEffect s (.host .run) { s.clearError with mode := .running }
  | stopped (hm : s.mode = .running) : TurnEffect s (.host .stop) { s with mode := .stopped }
  | loaded {ws : List Text} (hlen : ws.length ≤ 32) :
      TurnEffect s (.host (.load ws)) { s.clearError with mem := Memory.ofWords 0 ws, mode := .idle }
  | cleared : TurnEffect s (.host .reset) { State.reset with
      outLog := s.outLog, inputCount := s.inputCount, pending := s.pending, replies := s.replies }
  | kept {turn : Turn} (hm : s.mode ∈ nextModes turn s.mode) (replies : List HostReply) :
      TurnEffect s turn { s with replies := replies }

/-! Each host operation and the engine's turn, by the mode it is taken in (R84). -/

section ByMode

variable {s : State}

theorem mode_cases (s : State) :
    (s.mode = .idle ∨ s.mode = .stopped) ∨ (s.mode = .running ∨ s.mode = .halted) := by
  cases s.mode <;> simp

theorem hostRun_starts (hm : s.mode = .idle ∨ s.mode = .stopped) :
    hostRun s = .next { s.clearError with mode := .running } := by
  rcases hm with hm | hm <;> simp only [hostRun, hm]

theorem hostRun_answers (hm : s.mode = .running ∨ s.mode = .halted) : hostRun s = .next s.report := by
  rcases hm with hm | hm <;> simp only [hostRun, hm]

theorem hostStep_answers (hm : s.mode = .running ∨ s.mode = .halted) : hostStep s = .next s.report := by
  rcases hm with hm | hm <;> simp only [hostStep, hm]

theorem hostStop_stops (hm : s.mode = .running) : hostStop s = .next { s with mode := .stopped } := by
  simp only [hostStop, hm]

theorem hostStop_keeps (hm : s.mode ≠ .running) : hostStop s = .next s := by
  unfold hostStop
  split <;> simp_all

theorem engineTurn_runs (hm : s.mode = .running) : engineTurn s = engineStep s := by
  simp only [engineTurn, hm]

theorem engineTurn_keeps (hm : s.mode ≠ .running) : engineTurn s = .next s := by
  unfold engineTurn
  split <;> simp_all

end ByMode

theorem hostTurn_effect (op : HostOp) (s : State) : ∃ t, hostTurn op s = .next t ∧ TurnEffect s (.host op) t := by
  cases op with
  | run =>
    rcases mode_cases s with hm | hm
    · exact ⟨_, hostRun_starts hm, .started hm⟩
    · exact ⟨_, hostRun_answers hm, .kept (by rcases hm with hm | hm <;> simp [nextModes, hm]) _⟩
  | step =>
    rcases mode_cases s with hm | hm
    · obtain ⟨t, ht, -⟩ := engineStep_answers s.clearError
      exact ⟨_, by rw [hostTurn, hostStep_runs hm, ht, onNext_next], .stepped hm ht⟩
    · exact ⟨_, hostStep_answers hm, .kept (by rcases hm with hm | hm <;> simp [nextModes, hm]) _⟩
  | stop =>
    by_cases hm : s.mode = .running
    · exact ⟨_, hostStop_stops hm, .stopped hm⟩
    · exact ⟨_, hostStop_keeps hm, .kept (by cases h : s.mode <;> simp_all [nextModes]) s.replies⟩
  | load ws =>
    by_cases hlen : ws.length ≤ Config.memWords
    · exact ⟨_, if_pos hlen, .loaded hlen⟩
    · exact ⟨_, if_neg hlen, .kept (by simp [nextModes, hlen]) _⟩
  | reset => exact ⟨_, rfl, .cleared⟩
  | dump => exact ⟨_, rfl, .kept (by simp [nextModes]) _⟩
  | registers => exact ⟨_, rfl, .kept (by simp [nextModes]) _⟩

theorem engineTurn_effect (s : State) : ∃ t, engineTurn s = .next t ∧ TurnEffect s .engine t := by
  by_cases hm : s.mode = .running
  · obtain ⟨t, ht, -⟩ := engineStep_answers s
    exact ⟨t, by rw [engineTurn_runs hm, ht], .ran hm ht⟩
  · exact ⟨s, engineTurn_keeps hm, .kept (by cases h : s.mode <;> simp_all [nextModes]) s.replies⟩

theorem takeTurn_effect (turn : Turn) (s : State) :
    ∃ t, takeTurn turn s = .next (endRun s.mode t) ∧ TurnEffect s turn t := by
  cases turn with
  | engine =>
    obtain ⟨t, ht, heff⟩ := engineTurn_effect s
    exact ⟨t, by rw [takeTurn, ht, onNext_next], heff⟩
  | host op =>
    obtain ⟨t, ht, heff⟩ := hostTurn_effect op s
    exact ⟨t, by rw [takeTurn, ht, onNext_next], heff⟩

/-! ## One step -/

/-- The turn the next step takes: the engine's where the host has none left (log 3). -/
def nextTurn (s : State) : Turn := s.pending.head?.getD .engine

/-- The state with its next turn taken off the list. -/
def turnOff (s : State) : State := { s with pending := s.pending.tail }

/-- Every step answers a next state: the effect of its turn, and the report of a run it ends. -/
theorem step_effect (s : State) :
    ∃ t, step s = .next (endRun s.mode t) ∧ TurnEffect (turnOff s) (nextTurn s) t := by
  rw [step_turn]
  exact takeTurn_effect (nextTurn s) (turnOff s)

/-- As `step_effect`, for a step that is known to answer `t`. -/
theorem step_cases {s t : State} (h : step s = .next t) :
    ∃ u, t = endRun s.mode u ∧ TurnEffect (turnOff s) (nextTurn s) u := by
  obtain ⟨u, hu, heff⟩ := step_effect s
  rw [h] at hu
  cases hu
  exact ⟨u, rfl, heff⟩

/-- Settles O42: every turn has an effect. -/
theorem stepAlwaysAnswersNextState : Obligations.StepAlwaysAnswersNextState := by
  intro s
  obtain ⟨t, ht, -⟩ := step_effect s
  exact ⟨_, ht⟩

/-- An engine step reads and writes none of the host's fields. -/
theorem engineStep_host_fields {s t : State} (h : engineStep s = .next t) :
    t.pending = s.pending ∧ t.replies = s.replies := by
  obtain ⟨t', ht', hraised | hdone⟩ := engineStep_answers s
  · obtain ⟨k, rfl⟩ := hraised
    cases h.symm.trans ht'
    exact ⟨rfl, rfl⟩
  · cases h.symm.trans ht'
    exact ⟨hdone.pending, hdone.replies⟩

theorem TurnEffect.pending_eq {s t : State} {turn : Turn} (h : TurnEffect s turn t) : t.pending = s.pending := by
  cases h with
  | ran _ ht => exact (engineStep_host_fields ht).1
  | stepped _ ht => exact (engineStep_host_fields ht).1
  | started | stopped | loaded | cleared | kept => rfl

/-- A step takes one turn off the list and adds none. -/
theorem step_pending {s t : State} (h : step s = .next t) : t.pending = s.pending.tail := by
  obtain ⟨u, rfl, heff⟩ := step_cases h
  rw [endRun_pending, heff.pending_eq, turnOff]

/-- The next turn is one of the list's, or the engine's. -/
theorem nextTurn_cases (s : State) : nextTurn s ∈ s.pending ∨ nextTurn s = .engine := by
  unfold nextTurn
  cases s.pending with
  | nil => exact .inr rfl
  | cons turn rest => exact .inl List.mem_cons_self

theorem runFor_succ_cases {k : Nat} {s t : State} (h : runFor (k + 1) s = .next t) :
    ∃ u, step s = .next u ∧ runFor k u = .next t := by
  obtain ⟨u, hu, -⟩ := step_effect s
  exact ⟨_, hu, by rwa [runFor_succ hu] at h⟩

/-! ## Instruction words (R45, R161) -/

/-- Only a load puts an instruction word where none was: the engine stores data words, and a reset empties the
store. -/
theorem TurnEffect.words {s t : State} {turn : Turn} (h : TurnEffect s turn t)
    (hload : ∀ ws, turn ≠ .host (.load ws)) (a : Nat) (ha : classify (t.mem.read a) = .instr) :
    t.mem.read a = s.mem.read a := by
  cases h with
  | ran _ ht => exact engineStep_words ht a ha
  | stepped _ ht => exact engineStep_words ht a ha
  | loaded _ => exact absurd rfl (hload _)
  | cleared => cases ha
  | started | stopped | kept => rfl

theorem step_words {s t : State} (h : step s = .next t) (hload : ∀ ws, Turn.host (.load ws) ∉ s.pending) (a : Nat)
    (ha : classify (t.mem.read a) = .instr) : t.mem.read a = s.mem.read a := by
  obtain ⟨u, rfl, heff⟩ := step_cases h
  have hturn : ∀ ws, nextTurn s ≠ .host (.load ws) := by
    intro ws hws
    rcases nextTurn_cases s with hmem | heng
    · exact hload ws (hws ▸ hmem)
    · rw [hws] at heng
      cases heng
  rw [endRun_mem] at ha ⊢
  exact heff.words hturn a ha

/-- Settles O44, by induction on the number of steps: a word of the last state that is an instruction word stood there
one step before, and so from the start. -/
theorem noRunCreatesAnInstruction : Obligations.NoRunCreatesAnInstruction := by
  intro k
  induction k with
  | zero =>
    intro s t _ h a _
    cases h
    rfl
  | succ k ih =>
    intro s t hload h a ha
    obtain ⟨u, hu, hrun⟩ := runFor_succ_cases h
    have hload' : ∀ ws, Turn.host (.load ws) ∉ u.pending := by
      intro ws hws
      rw [step_pending hu] at hws
      exact hload ws (List.mem_of_mem_tail hws)
    have htail : t.mem.read a = u.mem.read a := ih u t hload' hrun a ha
    rw [htail] at ha ⊢
    exact step_words hu hload a ha

/-! ## The invariant -/

/-- Settles O46: no word is listed, PC is 0 and no error is recorded. -/
theorem resetStateHasTheInvariant : Obligations.ResetStateHasTheInvariant :=
  ⟨reset_mem_wf, Nat.zero_le _, nofun⟩

/-- An engine step runs with no error recorded: in Running by the invariant, for `step()` because it clears the
record. -/
theorem TurnEffect.keeps_inv {s t : State} {turn : Turn} (h : TurnEffect s turn t) (hs : s.Inv) : t.Inv := by
  obtain ⟨hmem, hpc, herr⟩ := hs
  cases h with
  | ran hm ht =>
    have hn : s.lastError = none := by
      by_contra hne
      have := herr (Option.isSome_iff_ne_none.2 hne)
      rw [hm] at this
      cases this
    exact engineStep_inv ⟨hmem, hpc, herr⟩ hn ht
  | stepped _ ht =>
    obtain ⟨hmem', hpc', herr'⟩ := engineStep_inv (clearError_inv ⟨hmem, hpc, herr⟩) rfl ht
    exact ⟨hmem', hpc', herr'⟩
  | started _ => exact ⟨hmem, hpc, nofun⟩
  | stopped _ => exact ⟨hmem, hpc, fun _ => rfl⟩
  | loaded hlen => exact ⟨Memory.ofWords_wf hlen, hpc, nofun⟩
  | cleared => exact resetStateHasTheInvariant
  | kept _ _ => exact ⟨hmem, hpc, herr⟩

/-- Settles O45: the invariant is kept by the turn's effect, and the report of a run's end is no part of it. -/
theorem everyStepKeepsTheInvariant : Obligations.EveryStepKeepsTheInvariant := by
  intro s t hs h
  obtain ⟨u, rfl, heff⟩ := step_cases h
  exact endRun_inv (heff.keeps_inv hs)

/-! ## The mode (R84) -/

/-- An engine step stays in its mode, halts or stops, and every other effect names its mode. -/
theorem TurnEffect.mode_mem {s t : State} {turn : Turn} (h : TurnEffect s turn t) :
    t.mode ∈ nextModes turn s.mode := by
  cases h with
  | ran hm ht =>
    have := engineStep_mode ht
    rw [hm] at this ⊢
    simpa [nextModes] using this
  | stepped hm ht =>
    have := engineStep_mode ht
    rcases hm with hm | hm
    · simpa [nextModes, hm] using this
    · simp only [State.clearError_mode, hm] at this
      rcases this with this | this | this <;> simp [nextModes, hm, this]
  | started hm => rcases hm with hm | hm <;> simp [nextModes, hm]
  | stopped hm => simp [nextModes, hm]
  | loaded hlen => simp [nextModes, hlen]
  | cleared => simp [nextModes, State.reset]
  | kept hm _ => exact hm

/-- Settles O54: the turn's effect obeys the table, and the report of a run's end keeps the mode. -/
theorem modeFollowsTheTransitionTable : Obligations.ModeFollowsTheTransitionTable := by
  intro s t h
  obtain ⟨u, rfl, heff⟩ := step_cases h
  rw [endRun_mode]
  exact heff.mode_mem

/-- In Halted only a load and a reset do more than answer the host (D35). -/
theorem TurnEffect.of_halted {s t : State} {turn : Turn} (h : TurnEffect s turn t) (hm : s.mode = .halted)
    (hturn : turn ≠ .host .reset ∧ ∀ ws, turn ≠ .host (.load ws)) : t = { s with replies := t.replies } := by
  cases h with
  | ran hr _ => simp [hm] at hr
  | stepped hr _ => simp [hm] at hr
  | started hr => simp [hm] at hr
  | stopped hr => simp [hm] at hr
  | loaded _ => exact absurd rfl (hturn.2 _)
  | cleared => exact absurd rfl hturn.1
  | kept _ _ => rfl

theorem step_halted {s : State} (hm : s.mode = .halted)
    (hturns : ∀ turn ∈ s.pending, turn ≠ .host .reset ∧ ∀ ws, turn ≠ .host (.load ws)) :
    ∃ t, step s = .next t ∧ t = { s with pending := s.pending.tail, replies := t.replies } := by
  obtain ⟨t, ht, heff⟩ := step_effect s
  have hturn : nextTurn s ≠ .host .reset ∧ ∀ ws, nextTurn s ≠ .host (.load ws) := by
    rcases nextTurn_cases s with hmem | heng
    · exact hturns _ hmem
    · rw [heng]
      exact ⟨nofun, nofun⟩
  rw [endRun_same (.inl (by simp [hm]))] at ht
  exact ⟨t, ht, heff.of_halted hm hturn⟩

/-- Settles O53, by induction on the number of steps: each takes one turn off and may answer the host. -/
theorem haltedIsTerminal : Obligations.HaltedIsTerminal := by
  intro k
  induction k with
  | zero => exact fun s _ _ => ⟨s, rfl, rfl⟩
  | succ k ih =>
    intro s hm hturns
    obtain ⟨u, hu, hkept⟩ := step_halted hm hturns
    have hpend : u.pending = s.pending.tail := step_pending hu
    have hm' : u.mode = .halted := by rw [hkept, hm]
    obtain ⟨t, ht, hrest⟩ := ih u hm' fun turn hmem => hturns turn (List.mem_of_mem_tail (hpend ▸ hmem))
    refine ⟨t, by rw [runFor_succ hu, ht], ?_⟩
    rw [hpend, List.drop_tail] at hrest
    rw [hrest, hkept]

end Sys2Proof.Proofs

/-! PROOFS. The Word Store and the operand forms (R32, R33, R36, R37, R77). -/

namespace Sys2Proof.Proofs

open Sys2Proof.Machine

/-- Settles O10: the written address reads the new word, every other address its old one. -/
theorem memWriteReplacesOneWord : Obligations.MemWriteReplacesOneWord := by
  intro m a b w
  by_cases h : b = a
  · subst h
    rw [Memory.read_write_same, if_pos rfl]
  · rw [Memory.read_write_other m w h, if_neg h]

theorem resolve_indirect_outOfRange {m : Memory} {p : Addr} {v : Int} (hw : classify (m.read p) = .data v)
    (hv : ¬(0 ≤ v ∧ v ≤ 31)) : resolve m .indirect (p.val : Int) = .error (.outOfRange v) := by
  simp only [resolve, checkAddr_addr, pointerRead, hw, checkAddr_none.2 hv]

theorem resolve_indirect_nonNumeric {m : Memory} {p : Addr} (hw : ∀ v, classify (m.read p) ≠ .data v) :
    resolve m .indirect (p.val : Int) = .error (.nonNumericWord p) := by
  simp only [resolve, checkAddr_addr, pointerRead]
  cases hc : classify (m.read p) with
  | data v => exact absurd hc (hw v)
  | empty | instr => rfl

/-- Settles O11: the range check comes first; then one lemma per class of the pointer's word. -/
theorem resolutionGivesTheEffectiveAddress : Obligations.ResolutionGivesTheEffectiveAddress :=
  fun m => ⟨fun mode _ hv => resolve_outOfRange m mode (by omega), resolve_direct m, fun _ _ => resolve_indirect,
    fun _ _ hw hv => resolve_indirect_outOfRange hw (by omega), fun _ => resolve_indirect_nonNumeric⟩

/-- `u16` is the Euclidean remainder by 65536 (R8). -/
theorem u16_toNat_eq_emod (v : Int) : ((u16 v).toNat : Int) = v % 65536 := by
  rw [u16, BitVec.toNat_ofInt]
  omega

/-- Settles O12: a data word's value goes through `u16`, and the other classes raise. -/
theorem operandReadReducesModulo65536 : Obligations.OperandReadReducesModulo65536 :=
  fun _ _ => ⟨fun v hw => ⟨u16 v, dataRead_data hw, u16_toNat_eq_emod v⟩, dataRead_other⟩

/-! ## The kinds of error an operand raises -/

/-- The errors of R144 and R145: a value that is no address, or a word that is no data word. -/
def IsOperandError (k : ErrorKind) : Prop := (∃ v, k = .outOfRange v) ∨ ∃ a, k = .nonNumericWord a

theorem exists_addr {v : Int} (h : 0 ≤ v ∧ v ≤ 31) : ∃ a : Addr, v = (a.val : Int) :=
  ⟨⟨v.toNat, by omega⟩, by simp only; omega⟩

theorem resolve_error {m : Memory} {mode : AddrMode} {v : Int} {k : ErrorKind} (h : resolve m mode v = .error k) :
    IsOperandError k := by
  by_cases hv : 0 ≤ v ∧ v ≤ 31
  · obtain ⟨p, rfl⟩ := exists_addr hv
    cases mode with
    | direct => simp [resolve_direct] at h
    | indirect =>
      cases hc : classify (m.read p) with
      | data x =>
        by_cases hx : 0 ≤ x ∧ x ≤ 31
        · obtain ⟨ea, rfl⟩ := exists_addr hx
          simp [resolve_indirect hc] at h
        · rw [resolve_indirect_outOfRange hc hx] at h
          exact .inl ⟨x, (Except.error.inj h).symm⟩
      | empty | instr =>
        rw [resolve_indirect_nonNumeric (by simp [hc])] at h
        exact .inr ⟨p, (Except.error.inj h).symm⟩
  · rw [resolve_outOfRange m mode hv] at h
    exact .inl ⟨v, (Except.error.inj h).symm⟩

theorem dataRead_error {m : Memory} {a : Addr} {k : ErrorKind} (h : dataRead m a = .error k) :
    IsOperandError k := by
  cases hc : classify (m.read a) with
  | data v => simp [dataRead_data hc] at h
  | empty | instr =>
    rw [dataRead_other (by simp [hc])] at h
    exact .inr ⟨a, (Except.error.inj h).symm⟩

end Sys2Proof.Proofs

/-! PROOFS. What an instruction can do (R21, R82, R83), said once: which errors it raises, and which registers and
words it writes where it raises none. -/

namespace Sys2Proof.Proofs

open Sys2Proof.Machine

/-! ## Instructions with an address operand -/

/-- The ten instructions that read an operand cell (R145). -/
def readsOperand (i : Instr) : Bool :=
  match i with
  | .lda _ _ | .and _ _ | .or _ _ | .xor _ _ | .add _ _ | .sub _ _ | .mul _ _ | .div _ _ | .inc _ _ | .dec _ _ => true
  | _ => false

/-- The 14 address instructions resolve their operand before anything else. -/
theorem exec_address {i : Instr} {m : AddrMode} {p : Int} (h : i.address? = some (m, p)) (s : State) :
    ∃ k, exec i s = withAddress m p s k := by
  cases i with
  | lda | and | or | xor | add | sub | mul | div | inc | dec =>
    cases h
    simp only [exec, execLda, execAnd, execOr, execXor, execAdd, execSub, execMul, execDiv, execInc, execDec,
      withOperand]
    exact ⟨_, rfl⟩
  | str | jmp | jze | jsa =>
    cases h
    simp only [exec, execStr, execJmp, execJze, execJsa]
    exact ⟨_, rfl⟩
  | cmp | clr | cre | cta | cte | skz | ina | skp | skn | cla | cra | hal | inp => cases h
  | out | sfi | sfo | put | opt | spi | spo | sie => cases h

/-- The ten readers read the cell next. -/
theorem exec_reader {i : Instr} {m : AddrMode} {p : Int} (h : i.address? = some (m, p)) (hread : readsOperand i = true)
    (s : State) : ∃ k, exec i s = withOperand m p s k := by
  cases i with
  | lda | and | or | xor | add | sub | mul | div | inc | dec =>
    cases h
    simp only [exec, execLda, execAnd, execOr, execXor, execAdd, execSub, execMul, execDiv, execInc, execDec]
    exact ⟨_, rfl⟩
  | str | jmp | jze | jsa | cmp | clr | cre | cta | cte | skz | ina | skp | skn | cla | cra | hal => cases hread
  | inp | out | sfi | sfo | put | opt | spi | spo | sie => cases hread

/-- Settles O13: each of the 14 begins with the resolution, whose error is taken before anything is written. -/
theorem addressErrorsAreTaken : Obligations.AddressErrorsAreTaken := by
  intro i m p s e hi hp hr
  obtain ⟨k, hk⟩ := exec_address hi s
  rw [hk]
  exact withAddress_error hp hr k

/-- Settles O14: each of the ten reads its cell, whose error is taken before anything is written. -/
theorem nonNumericOperandIsTaken : Obligations.NonNumericOperandIsTaken := by
  intro i m p s ea hi hp hr hw
  have hreader : i.address? = some (m, p) ∧ readsOperand i = true := by
    revert i
    simp [Instr.address?, readsOperand]
  obtain ⟨k, hk⟩ := exec_reader hreader.1 hreader.2 s
  rw [hk]
  exact withOperand_error hp hr (dataRead_other hw) k

/-! ## Every instruction: an error of its own kinds, or its row of the write matrix -/

/-- The errors an instruction raises once it is decoded (R82): those of its resolution, those of its operand read, and
DIV's own. -/
inductive Raises (s : State) : Instr → ErrorKind → Prop
  | resolution {i : Instr} {m : AddrMode} {p : Int} {k : ErrorKind} (hi : i.address? = some (m, p))
      (hr : resolve s.mem m p = .error k) : Raises s i k
  | operand {i : Instr} {ea : Addr} {k : ErrorKind} (hi : readsOperand i = true) (hx : dataRead s.mem ea = .error k) :
      Raises s i k
  | zeroDivisor {m : AddrMode} {p : Int} : Raises s (.div m p) .divisionByZero

/-- The instructions that may advance PC by two (R17). -/
def Skips (i : Instr) : Prop := i ∈ [.skz, .skp, .skn] ∨ ∃ m p, i ∈ [.inc m p, .dec m p]

/-- An instruction's row of the write matrix: `s` with the fields taken from `t` that the instruction writes. -/
def matrixRow (i : Instr) (s t : State) : State :=
  { s with
    ac := if writesAc i then t.ac else s.ac
    e := if writesE i then t.e else s.e
    mem := if writesMem i then t.mem else s.mem
    outLog := if i = .out then t.outLog else s.outLog
    inputCount := if i = .inp none then t.inputCount else s.inputCount
    mode := if i = .hal then .halted else s.mode
    ar := t.ar, ir := s.mem.read s.pc, pc := t.pc }

/-- The address AR holds after a completed instruction: the effective address, or the fetch address (D16). -/
def IsFinalAr (i : Instr) (s : State) (ar : Addr) : Prop :=
  match i.address? with
  | some (m, p) => resolve s.mem m p = .ok ar
  | none => s.pc = ar.val

/-- What a completed instruction has done. -/
structure Completes (i : Instr) (s t : State) : Prop where
  row : t = matrixRow i s t
  ar : IsFinalAr i s t.ar
  words : ∀ b, b ≠ t.ar.val → t.mem.read b = s.mem.read b
  pc : t.pc ≤ 32 ∨ t.pc ≤ s.pc + 2 ∧ Skips i

/-- All that an instruction can do: take the fetch's error or one of its own, or complete. -/
def ExecEffect (i : Instr) (s : State) (r : Result) : Prop :=
  ∃ t, r = .next t ∧ ((∃ k, t = s.raise (fetchedWord s) k ∧ (s.pc < 32 → Raises s i k)) ∨ Completes i s t)

section Shapes

variable {i : Instr} {s : State} {m : AddrMode} {p : Int}

theorem effect_raise {k : ErrorKind} (hp : s.pc < 32) (hk : Raises s i k) :
    ExecEffect i s (.next (s.raise (some (s.mem.read s.pc)) k)) :=
  ⟨_, rfl, .inl ⟨k, by rw [fetchedWord, if_pos hp], fun _ => hk⟩⟩

theorem effect_withFetch {k : Addr → Text → Result}
    (h : s.pc < 32 → ∀ a : Addr, s.pc = a.val → ExecEffect i s (k a (s.mem.read s.pc))) :
    ExecEffect i s (withFetch s k) := by
  by_cases hp : s.pc < 32
  · rw [withFetch_next hp]
    exact h hp _ rfl
  · rw [withFetch_error (by omega)]
    exact ⟨_, rfl, .inl ⟨_, by rw [fetchedWord, if_neg hp], fun hp' => absurd hp' hp⟩⟩

theorem effect_withAddress {k : Text → Addr → Result} (hi : i.address? = some (m, p))
    (h : s.pc < 32 → ∀ ea, resolve s.mem m p = .ok ea → ExecEffect i s (k (s.mem.read s.pc) ea)) :
    ExecEffect i s (withAddress m p s k) := by
  refine effect_withFetch fun hp _ _ => ?_
  cases hr : resolve s.mem m p with
  | error e => exact effect_raise hp (.resolution hi hr)
  | ok ea => exact h hp ea hr

theorem effect_withOperand {k : Text → Addr → Value → Result} (hi : i.address? = some (m, p))
    (hread : readsOperand i = true)
    (h : s.pc < 32 → ∀ ea x, resolve s.mem m p = .ok ea → ExecEffect i s (k (s.mem.read s.pc) ea x)) :
    ExecEffect i s (withOperand m p s k) := by
  refine effect_withAddress hi fun hp ea hr => ?_
  cases hx : dataRead s.mem ea with
  | error e => exact effect_raise hp (.operand hread hx)
  | ok x => exact h hp ea x hr

end Shapes

/-- Every instruction's meaning has the effect that its shape, its row and its PC policy allow. -/
theorem exec_effect (i : Instr) (s : State) : ExecEffect i s (exec i s) := by
  cases i with
  | lda m p | and m p | or m p | xor m p | add m p | sub m p | mul m p =>
    simp only [exec, execLda, execAnd, execOr, execXor, execAdd, execSub, execMul]
    refine effect_withOperand rfl rfl fun hp ea x hr => ?_
    exact ⟨_, rfl, .inr ⟨rfl, hr, fun _ _ => rfl, .inl hp⟩⟩
  | div m p =>
    simp only [exec, execDiv]
    refine effect_withOperand rfl rfl fun hp ea x hr => ?_
    split
    · exact effect_raise hp .zeroDivisor
    · exact ⟨_, rfl, .inr ⟨rfl, hr, fun _ _ => rfl, .inl hp⟩⟩
  | inc m p | dec m p =>
    simp only [exec, execInc, execDec, writeBack]
    refine effect_withOperand rfl rfl fun hp ea x hr => ?_
    refine ⟨_, rfl, .inr ⟨rfl, hr, fun _ hb => dataWrite_read_other _ _ _ hb, .inr ⟨skipPc_le _ _, ?_⟩⟩⟩
    exact .inr ⟨m, p, by simp⟩
  | str m p =>
    simp only [exec, execStr]
    refine effect_withAddress rfl fun hp ea hr => ?_
    exact ⟨_, rfl, .inr ⟨rfl, hr, fun _ hb => dataWrite_read_other _ _ _ hb, .inl hp⟩⟩
  | jsa m p =>
    simp only [exec, execJsa]
    refine effect_withAddress rfl fun hp ea hr => ?_
    exact ⟨_, rfl, .inr ⟨rfl, hr, fun _ hb => dataWrite_read_other _ _ _ hb, .inl ea.isLt.le⟩⟩
  | jmp m p =>
    simp only [exec, execJmp]
    refine effect_withAddress rfl fun hp ea hr => ?_
    exact ⟨_, rfl, .inr ⟨rfl, hr, fun _ _ => rfl, .inl ea.isLt.le⟩⟩
  | jze m p =>
    simp only [exec, execJze]
    refine effect_withAddress rfl fun hp ea hr => ?_
    have hpc : (if isZero s.ac then ea.val else s.pc + 1) ≤ 32 := by split <;> omega
    exact ⟨_, rfl, .inr ⟨rfl, hr, fun _ _ => rfl, .inl hpc⟩⟩
  | cmp _ | clr | cre | cta | cte | ina | cla | cra =>
    simp only [exec, execCmp, execClr, execCre, execCta, execCte, execIna, execCla, execCra]
    refine effect_withFetch fun hp a ha => ?_
    exact ⟨_, rfl, .inr ⟨rfl, ha, fun _ _ => rfl, .inl hp⟩⟩
  | out | sfi | sfo | put | opt | spi | spo | sie =>
    simp only [exec, execOut, execSfi, execSfo, execPut, execOpt, execSpi, execSpo, execSie, advance]
    refine effect_withFetch fun hp a ha => ?_
    exact ⟨_, rfl, .inr ⟨rfl, ha, fun _ _ => rfl, .inl hp⟩⟩
  | inp n =>
    simp only [exec, execInp]
    refine effect_withFetch fun hp a ha => ?_
    cases n with
    | none => exact ⟨_, rfl, .inr ⟨rfl, ha, fun _ _ => rfl, .inl hp⟩⟩
    | some x => exact ⟨_, rfl, .inr ⟨rfl, ha, fun _ _ => rfl, .inl hp⟩⟩
  | skz | skp | skn =>
    simp only [exec, execSkz, execSkp, execSkn]
    refine effect_withFetch fun hp a ha => ?_
    exact ⟨_, rfl, .inr ⟨rfl, ha, fun _ _ => rfl, .inr ⟨skipPc_le _ _, .inl (by simp)⟩⟩⟩
  | hal =>
    simp only [exec, execHal]
    refine effect_withFetch fun hp a ha => ?_
    exact ⟨_, rfl, .inr ⟨rfl, ha, fun _ _ => rfl, .inl hp.le⟩⟩

/-- As `exec_effect`, for an instruction that is known to answer `t`. -/
theorem exec_cases {i : Instr} {s t : State} (h : exec i s = .next t) :
    (∃ k, t = s.raise (fetchedWord s) k ∧ (s.pc < 32 → Raises s i k)) ∨ Completes i s t := by
  obtain ⟨t', ht', heff⟩ := exec_effect i s
  cases h.symm.trans ht'
  exact heff

section Rows

variable {i : Instr} {s t : State}

theorem Completes.ac_eq (h : Completes i s t) (hi : writesAc i = false) : t.ac = s.ac := by
  simpa [matrixRow, hi] using congrArg State.ac h.row

theorem Completes.e_eq (h : Completes i s t) (hi : writesE i = false) : t.e = s.e := by
  simpa [matrixRow, hi] using congrArg State.e h.row

theorem Completes.mem_eq (h : Completes i s t) (hi : writesMem i = false) : t.mem = s.mem := by
  simpa [matrixRow, hi] using congrArg State.mem h.row

theorem Completes.outLog_eq (h : Completes i s t) (hi : i ≠ .out) : t.outLog = s.outLog := by
  simpa [matrixRow, hi] using congrArg State.outLog h.row

theorem Completes.inputCount_eq (h : Completes i s t) (hi : i ≠ .inp none) : t.inputCount = s.inputCount := by
  simpa [matrixRow, hi] using congrArg State.inputCount h.row

theorem Completes.mode_eq (h : Completes i s t) : t.mode = if i = .hal then .halted else s.mode :=
  congrArg State.mode h.row

theorem Completes.lastError_eq (h : Completes i s t) : t.lastError = s.lastError := by
  simpa [matrixRow] using congrArg State.lastError h.row

theorem Completes.pending_eq (h : Completes i s t) : t.pending = s.pending := by
  simpa [matrixRow] using congrArg State.pending h.row

theorem Completes.replies_eq (h : Completes i s t) : t.replies = s.replies := by
  simpa [matrixRow] using congrArg State.replies h.row

theorem Completes.ir_eq (h : Completes i s t) : t.ir = s.mem.read s.pc := by
  simpa [matrixRow] using congrArg State.ir h.row

theorem Completes.ar_of_no_address (h : Completes i s t) (hi : i.address? = none) : t.ar.val = s.pc := by
  have har := h.ar
  rw [IsFinalAr, hi] at har
  exact har.symm

theorem Completes.ar_of_address {m : AddrMode} {p : Int} (h : Completes i s t) (hi : i.address? = some (m, p)) :
    resolve s.mem m p = .ok t.ar := by
  have har := h.ar
  rwa [IsFinalAr, hi] at har

end Rows

/-- Settles O43: an instruction that raises keeps all but the mode and the record, and one that completes its row. -/
theorem instructionWriteMatrix : Obligations.InstructionWriteMatrix := by
  intro i s t h
  rcases exec_cases h with ⟨k, rfl, -⟩ | hdone
  · exact ⟨fun _ => rfl, fun _ => rfl, fun _ => rfl, fun _ _ _ => rfl, fun _ => rfl, fun _ => rfl,
      fun _ => .inr rfl, rfl, rfl, fun _ herr => nomatch herr⟩
  · exact ⟨hdone.ac_eq, hdone.e_eq, hdone.mem_eq, fun _ => hdone.words, hdone.outLog_eq, hdone.inputCount_eq,
      fun hi => .inl (hdone.mode_eq.trans (if_neg hi)), hdone.pending_eq, hdone.replies_eq,
      fun _ _ => ⟨hdone.ir_eq, hdone.ar_of_no_address, fun _ _ => hdone.ar_of_address⟩⟩

/-! ## Which instruction raises which error -/

theorem address_isSome_of_readsOperand {i : Instr} (h : readsOperand i = true) : i.address?.isSome = true := by
  cases i with
  | lda | and | or | xor | add | sub | mul | div | inc | dec => rfl
  | str | jmp | jze | jsa | cmp | clr | cre | cta | cte | skz | ina | skp | skn | cla | cra | hal => cases h
  | inp | out | sfi | sfo | put | opt | spi | spo | sie => cases h

theorem Raises.address_isSome {s : State} {i : Instr} {k : ErrorKind} (h : Raises s i k) :
    i.address?.isSome = true := by
  cases h with
  | resolution hi _ => rw [hi, Option.isSome_some]
  | operand hi _ => exact address_isSome_of_readsOperand hi
  | zeroDivisor => rfl

/-- An instruction raises an operand's error, or is DIV and divides by zero. -/
theorem Raises.kind {s : State} {i : Instr} {k : ErrorKind} (h : Raises s i k) :
    IsOperandError k ∨ k = .divisionByZero ∧ ∃ m p, i = .div m p := by
  cases h with
  | resolution _ hr => exact .inl (resolve_error hr)
  | operand _ hx => exact .inl (dataRead_error hx)
  | zeroDivisor => exact .inr ⟨rfl, _, _, rfl⟩

/-- An instruction that reads no operand cell raises only the error of its resolution. -/
theorem Raises.resolve_error {s : State} {i : Instr} {k : ErrorKind} {m : AddrMode} {p : Int} (h : Raises s i k)
    (hi : i.address? = some (m, p)) (hread : readsOperand i = false) : resolve s.mem m p = .error k := by
  cases h with
  | resolution hi' hr =>
    rw [hi] at hi'
    cases hi'
    exact hr
  | operand hread' _ => simp [hread] at hread'
  | zeroDivisor => cases hread

theorem address_of_mem_nonReaders {i : Instr} {m : AddrMode} {p : Int}
    (h : i ∈ [.str m p, .jmp m p, .jze m p, .jsa m p]) : i.address? = some (m, p) ∧ readsOperand i = false := by
  revert i
  simp [Instr.address?, readsOperand]

/-- Settles O18: the recorded kind is one the instruction raises, since completing would leave no record. -/
theorem instructionErrorsByKind : Obligations.InstructionErrorsByKind := by
  intro i s t r hp hn h herr
  rcases exec_cases h with ⟨k, rfl, hraises⟩ | hdone
  · cases herr
    have hk := hraises hp
    refine ⟨hk.address_isSome, fun hzero => ?_, fun e he => ?_, fun m p hi => ?_⟩
    · rcases hk.kind with (⟨v, rfl⟩ | ⟨a, rfl⟩) | ⟨-, hdiv⟩
      · cases hzero
      · cases hzero
      · exact hdiv
    · rcases hk.kind with (⟨v, rfl⟩ | ⟨a, rfl⟩) | ⟨rfl, -⟩ <;> cases he
    · obtain ⟨haddr, hread⟩ := address_of_mem_nonReaders hi
      exact hk.resolve_error haddr hread
  · rw [hdone.lastError_eq, hn] at herr
    cases herr

end Sys2Proof.Proofs

/-! PROOFS. The engine step (R71 to R76, R82, R83): what it does by the word at PC, and its four outcomes. -/

namespace Sys2Proof.Proofs

open Sys2Proof.Machine

section ByWord

variable {s : State}

theorem engineStep_outOfStore (hp : 31 < s.pc) : engineStep s = .next (s.raise none (.outOfRange s.pc)) :=
  withFetch_error hp _

/-- An empty or a data word is skipped (R75). -/
theorem engineStep_skips {a : Addr} (ha : s.pc = a.val) (hw : classify (s.mem.read s.pc) ≠ .instr) :
    engineStep s = .next (s.commit a (s.mem.read s.pc) (s.pc + 1)) := by
  rw [engineStep, withFetch_at ha]
  cases hc : classify (s.mem.read s.pc) with
  | empty | data v => rfl
  | instr => exact absurd hc hw

/-- A word that decodes runs its instruction: it is no data word, so it is not skipped (R59, R76, R79). -/
theorem engineStep_of_decode_ok {i : Instr} (hp : s.pc < 32) (hd : decode (s.mem.read s.pc) = .ok i) :
    engineStep s = exec i s := by
  rw [engineStep, withFetch_next hp]
  simp only [classify_of_decode_ok hd, hd]

end ByWord

/-- All that an engine step can do, by the word at PC. -/
inductive StepEffect (s : State) : State → Prop
  | outOfStore (hp : 31 < s.pc) : StepEffect s (s.raise none (.outOfRange s.pc))
  | skipped {a : Addr} (ha : s.pc = a.val) (hw : classify (s.mem.read s.pc) ≠ .instr) :
      StepEffect s (s.commit a (s.mem.read s.pc) (s.pc + 1))
  | undecoded {e : DecodeError} (hp : s.pc < 32) (hw : classify (s.mem.read s.pc) = .instr)
      (hd : decode (s.mem.read s.pc) = .error e) : StepEffect s (s.raise (some (s.mem.read s.pc)) (.decode e))
  | raised {i : Instr} {k : ErrorKind} (hp : s.pc < 32) (hd : decode (s.mem.read s.pc) = .ok i) (hk : Raises s i k) :
      StepEffect s (s.raise (some (s.mem.read s.pc)) k)
  | completed {i : Instr} {t : State} (hp : s.pc < 32) (hd : decode (s.mem.read s.pc) = .ok i)
      (hdone : Completes i s t) : StepEffect s t

theorem engineStep_effect {s t : State} (h : engineStep s = .next t) : StepEffect s t := by
  by_cases hp : s.pc < 32
  · by_cases hw : classify (s.mem.read s.pc) = .instr
    · cases hd : decode (s.mem.read s.pc) with
      | error e =>
        cases h.symm.trans (engineStep_of_decode_error hp hw hd)
        exact .undecoded hp hw hd
      | ok i =>
        rw [engineStep_of_decode_ok hp hd] at h
        rcases exec_cases h with ⟨k, rfl, hk⟩ | hdone
        · rw [fetchedWord, if_pos hp]
          exact .raised hp hd (hk hp)
        · exact .completed hp hd hdone
    · cases h.symm.trans (engineStep_skips (a := ⟨s.pc, hp⟩) rfl hw)
      exact .skipped rfl hw
  · cases h.symm.trans (engineStep_outOfStore (by omega))
    exact .outOfStore (by omega)

/-- Settles O15: the fetch's error and the decoder's are taken as they are. -/
theorem fetchAndDecodeErrorsAreTaken : Obligations.FetchAndDecodeErrorsAreTaken :=
  fun _ => ⟨engineStep_outOfStore, fun _ => engineStep_of_decode_error⟩

/-- Settles O17: with no record before the step, a record after it is the one that taking an error writes. -/
theorem failingStepCommitsNothing : Obligations.FailingStepCommitsNothing := by
  intro s t r hn h herr
  obtain ⟨t', ht', ⟨k, rfl⟩ | hdone⟩ := engineStep_answers s
  · cases h.symm.trans ht'
    cases herr
    exact ⟨rfl, rfl, rfl⟩
  · cases h.symm.trans ht'
    rw [hdone.lastError, hn] at herr
    cases herr

/-- Every effect but a skip instruction's leads at most to 32. -/
theorem StepEffect.pc_bound {s t : State} (h : StepEffect s t) (hp : s.pc ≤ 31) :
    t.pc ≤ 32 ∨ t.pc ≤ s.pc + 2 ∧ ∃ i, decode (s.mem.read s.pc) = .ok i ∧ Skips i := by
  cases h with
  | outOfStore | undecoded | raised => exact .inl (Nat.le_succ_of_le hp)
  | skipped => exact .inl (Nat.succ_le_succ hp)
  | completed _ hd hdone => exact hdone.pc.imp_right fun ⟨hpc, hskips⟩ => ⟨hpc, _, hd, hskips⟩

/-- Settles O47: only the second bound reaches 33, and from 31 alone. -/
theorem pcReaches33OnlyBySkipAt31 : Obligations.PcReaches33OnlyBySkipAt31 := by
  intro s t hp h
  rcases (engineStep_effect h).pc_bound hp with hpc | ⟨hpc, hskips⟩
  · exact ⟨by omega, fun h33 => by omega⟩
  · exact ⟨by omega, fun h33 => ⟨by omega, hskips⟩⟩

/-! ## The four outcomes (R83) -/

theorem stepOutcome_of_record {s t : State} {r : ErrorRecord} (h : t.lastError = some r) :
    stepOutcome s t = .faulted r.kind := by
  simp only [stepOutcome, h]

theorem stepOutcome_of_skip {s t : State} (h : t.lastError = none) (hw : classify (s.mem.read s.pc) ≠ .instr) :
    stepOutcome s t = .skipped := by
  simp only [stepOutcome, h]
  cases hc : classify (s.mem.read s.pc) with
  | empty | data v => rfl
  | instr => exact absurd hc hw

theorem stepOutcome_of_instr {s t : State} (h : t.lastError = none) (hw : classify (s.mem.read s.pc) = .instr) :
    stepOutcome s t = if t.mode = .halted then .halted else .executed := by
  simp only [stepOutcome, h, hw]

/-- HAL has no operand, so it raises nothing. -/
theorem Raises.ne_hal {s : State} {i : Instr} {k : ErrorKind} (h : Raises s i k) : i ≠ .hal := by
  rintro rfl
  cases h.address_isSome

/-- The outcome of the step from `s` to `t` is the one that the word at PC and the error decide. -/
def OutcomeIsDecided (s t : State) : Prop :=
  (stepOutcome s t = .skipped ↔ s.pc < 32 ∧ classify (s.mem.read s.pc) ≠ .instr) ∧
  (stepOutcome s t = .halted ↔
    s.pc < 32 ∧ classify (s.mem.read s.pc) = .instr ∧ decode (s.mem.read s.pc) = .ok .hal) ∧
  (stepOutcome s t = .executed → t.mode = s.mode ∧ ∃ i, decode (s.mem.read s.pc) = .ok i ∧ i ≠ .hal) ∧
  ∀ k, stepOutcome s t = .faulted k → t = { s with mode := .stopped, lastError := t.lastError }

/-- A step that takes an error is faulted, where the word is no skipped word and no HAL. -/
theorem outcomeIsDecided_raise {s : State} (w : Option Text) (k : ErrorKind)
    (hskip : ¬(s.pc < 32 ∧ classify (s.mem.read s.pc) ≠ .instr))
    (hhal : ¬(s.pc < 32 ∧ classify (s.mem.read s.pc) = .instr ∧ decode (s.mem.read s.pc) = .ok .hal)) :
    OutcomeIsDecided s (s.raise w k) := by
  rw [OutcomeIsDecided, stepOutcome_of_record (State.raise_lastError s w k)]
  exact ⟨iff_of_false nofun hskip, iff_of_false nofun hhal, nofun, fun _ _ => State.raise_eq s w k⟩

/-- Settles O60, by what the step does: the outcome of each effect, and which word it came from. -/
theorem engineStepHasOneOfFourOutcomes : Obligations.EngineStepHasOneOfFourOutcomes := by
  intro s t hmode hn h
  show OutcomeIsDecided s t
  cases engineStep_effect h with
  | outOfStore hp => exact outcomeIsDecided_raise _ _ (by omega) (by omega)
  | @skipped a ha hw =>
    have hp : s.pc < 32 := by omega
    have hout := stepOutcome_of_skip (t := s.commit a (s.mem.read s.pc) (s.pc + 1)) hn hw
    rw [OutcomeIsDecided, hout]
    exact ⟨iff_of_true rfl ⟨hp, hw⟩, iff_of_false nofun fun hhal => hw hhal.2.1, nofun, nofun⟩
  | undecoded hp hw hd => exact outcomeIsDecided_raise _ _ (fun hskip => hskip.2 hw) (by simp [hd])
  | raised hp hd hk =>
    exact outcomeIsDecided_raise _ _ (fun hskip => hskip.2 (classify_of_decode_ok hd)) (by simp [hd, hk.ne_hal])
  | @completed i t hp hd hdone =>
    have hw := classify_of_decode_ok hd
    rw [OutcomeIsDecided, stepOutcome_of_instr (hdone.lastError_eq.trans hn) hw, hdone.mode_eq]
    by_cases hi : i = .hal
    · subst hi
      simp [hp, hw, hd]
    · simp [hi, hmode, hw, hd]

end Sys2Proof.Proofs

/-! PROOFS. The memory-reference instructions (R102 to R116), from a fetched word and a resolved operand. -/

namespace Sys2Proof.Proofs

open Sys2Proof.Machine

/-! ## Conditions and quotients of 16-bit values -/

theorem isZero_iff (v : Value) : isZero v = true ↔ v.toNat = 0 := by
  rw [isZero, beq_iff_eq, BitVec.toNat_eq]
  rfl

/-- A skip's PC, its condition given as a proposition. -/
theorem skipPc_eq_ite {b : Bool} {P : Prop} [Decidable P] (h : b = true ↔ P) (pc : Nat) :
    skipPc b pc = if P then pc + 2 else pc + 1 := by
  simp only [skipPc, h]

theorem isZero_add_one (v : Value) : isZero (v + 1) = true ↔ v.toNat = 65535 := by
  have := v.isLt
  rw [isZero_iff, BitVec.toNat_add, show (1 : Value).toNat = 1 from rfl]
  omega

theorem isZero_sub_one (v : Value) : isZero (v - 1) = true ↔ v.toNat = 1 := by
  have := v.isLt
  rw [isZero_iff, BitVec.toNat_sub, show (1 : Value).toNat = 1 from rfl]
  omega

theorem u16_div_toNat (a b : Value) : (u16 ((a.toNat / b.toNat : Nat) : Int)).toNat = a.toNat / b.toNat :=
  u16_toNat _ ((Nat.div_le_self _ _).trans_lt a.isLt)

/-! ## The effective address alone: STR, JMP, JZE, JSA -/

section Address

variable {m : AddrMode} {p : Int} {s : State} {ea : Addr}

theorem exec_str (hp : s.pc < 32) (hr : resolve s.mem m p = .ok ea) :
    exec (.str m p) s =
      .next { s.commit ea (s.mem.read s.pc) (s.pc + 1) with mem := dataWrite s.mem ea s.ac.toNat } := by
  rw [exec]
  exact withAddress_next hp hr _

theorem exec_jmp (hp : s.pc < 32) (hr : resolve s.mem m p = .ok ea) :
    exec (.jmp m p) s = .next (s.commit ea (s.mem.read s.pc) ea) := by
  rw [exec]
  exact withAddress_next hp hr _

theorem exec_jze (hp : s.pc < 32) (hr : resolve s.mem m p = .ok ea) :
    exec (.jze m p) s = .next (s.commit ea (s.mem.read s.pc) (if isZero s.ac then ea else s.pc + 1)) := by
  rw [exec]
  exact withAddress_next hp hr _

theorem exec_jsa (hp : s.pc < 32) (hr : resolve s.mem m p = .ok ea) :
    exec (.jsa m p) s = .next { s.commit ea (s.mem.read s.pc) ea with mem := dataWrite s.mem ea (s.pc + 1) } := by
  rw [exec]
  exact withAddress_next hp hr _

end Address

/-- Settles O20: the one write of the step is STR's data write. -/
theorem strStoresAccumulator : Obligations.StrStoresAccumulator :=
  fun _ _ _ _ hp hr =>
    ⟨_, exec_str hp hr, rfl, dataWrite_read_same _ _ _, fun _ => dataWrite_read_other _ _ _⟩

/-- Settles O21: the effective address is committed to PC. -/
theorem jmpSetsPc : Obligations.JmpSetsPc :=
  fun _ _ _ _ hp hr => exec_jmp hp hr

/-- Settles O22: `isZero` looks at all 16 bits. -/
theorem jzeJumpsOnZero : Obligations.JzeJumpsOnZero := by
  intro m p s ea hp hr
  rw [exec_jze hp hr]
  simp only [isZero_iff, State.commit]

/-- Settles O23: the one write of the step is JSA's data write. -/
theorem jsaSavesReturnAddress : Obligations.JsaSavesReturnAddress :=
  fun _ _ _ _ hp hr =>
    ⟨_, exec_jsa hp hr, rfl, dataWrite_read_same _ _ _, fun _ => dataWrite_read_other _ _ _⟩

/-! ## The operand's value: LDA, AND, OR, XOR, ADD, SUB, MUL, DIV -/

section Operand

variable {m : AddrMode} {p : Int} {s : State} {ea : Addr} {v : Value}

theorem exec_lda (hp : s.pc < 32) (hr : resolve s.mem m p = .ok ea) (hv : dataRead s.mem ea = .ok v) :
    exec (.lda m p) s = .next { s.commit ea (s.mem.read s.pc) (s.pc + 1) with ac := v } := by
  rw [exec]
  exact withOperand_next hp hr hv _

theorem exec_div (hp : s.pc < 32) (hr : resolve s.mem m p = .ok ea) (hv : dataRead s.mem ea = .ok v) :
    exec (.div m p) s =
      if v.toNat = 0 then .next (s.raise (some (s.mem.read s.pc)) .divisionByZero)
      else .next { s.commit ea (s.mem.read s.pc) (s.pc + 1) with
        ac := u16 ((s.ac.toNat / v.toNat : Nat) : Int) } := by
  rw [exec]
  exact withOperand_next hp hr hv _

theorem exec_inc (hp : s.pc < 32) (hr : resolve s.mem m p = .ok ea) (hv : dataRead s.mem ea = .ok v) :
    exec (.inc m p) s = .next (writeBack s (s.mem.read s.pc) ea (v + 1)) := by
  rw [exec, ← u16_add_one]
  exact withOperand_next hp hr hv _

theorem exec_dec (hp : s.pc < 32) (hr : resolve s.mem m p = .ok ea) (hv : dataRead s.mem ea = .ok v) :
    exec (.dec m p) s = .next (writeBack s (s.mem.read s.pc) ea (v - 1)) := by
  rw [exec, ← u16_sub_one]
  exact withOperand_next hp hr hv _

end Operand

/-- Settles O19: the operand is committed to AC. -/
theorem ldaLoadsOperand : Obligations.LdaLoadsOperand :=
  fun _ _ _ _ _ hp hr hv => exec_lda hp hr hv

/-- Settles O24: the operations on 16-bit values are those on their bits. -/
theorem logicInstructionsCombineBitwise : Obligations.LogicInstructionsCombineBitwise := by
  refine fun m p s ea v hp hr hv => ⟨?_, ?_, ?_⟩
  · rw [exec]
    exact ⟨_, withOperand_next hp hr hv _, rfl, fun _ => BitVec.getLsbD_and⟩
  · rw [exec]
    exact ⟨_, withOperand_next hp hr hv _, rfl, fun _ => BitVec.getLsbD_or⟩
  · rw [exec]
    exact ⟨_, withOperand_next hp hr hv _, rfl, fun _ => BitVec.getLsbD_xor⟩

/-- Settles O25: the reduced sum is 16-bit addition, and E looks at the sum before it. -/
theorem addWrapsAndSetsE : Obligations.AddWrapsAndSetsE := by
  intro m p s ea v hp hr hv
  rw [exec, ← u16_add]
  exact withOperand_next hp hr hv _

/-- Settles O26: the reduced difference is 16-bit subtraction. -/
theorem subWraps : Obligations.SubWraps := by
  intro m p s ea v hp hr hv
  rw [exec, ← u16_sub]
  exact withOperand_next hp hr hv _

/-- Settles O27: the reduced product is 16-bit multiplication. -/
theorem mulKeepsLowBitsAndSetsE : Obligations.MulKeepsLowBitsAndSetsE := by
  intro m p s ea v hp hr hv
  rw [exec, ← u16_mul]
  exact withOperand_next hp hr hv _

/-- Settles O28: the handler's test for zero parts the two clauses, and a quotient needs no reduction. -/
theorem divDividesOrRaises : Obligations.DivDividesOrRaises := by
  intro m p s ea v hp hr hv
  rw [exec_div hp hr hv]
  constructor
  · intro hne
    have hnat : ¬v.toNat = 0 := fun hzero => hne (BitVec.eq_of_toNat_eq hzero)
    rw [if_neg hnat]
    exact ⟨_, rfl, rfl, u16_div_toNat s.ac v⟩
  · rintro rfl
    rfl

/-! ## Back to the operand's cell: INC, DEC -/

/-- What the write-back changes beside its one word, the skip's condition given as a proposition. -/
theorem writeBack_eq {P : Prop} [Decidable P] (s : State) (w : Text) (ea : Addr) {r : Value}
    (h : isZero r = true ↔ P) :
    writeBack s w ea r = { s with
      ac := r, mem := (writeBack s w ea r).mem, ar := ea, ir := w, pc := if P then s.pc + 2 else s.pc + 1 } := by
  rw [← skipPc_eq_ite h]
  rfl

/-- Settles O29: both are a write-back, of the value plus or minus one. -/
theorem incDecWriteBackAndSkipOnZero : Obligations.IncDecWriteBackAndSkipOnZero :=
  fun _ _ s ea v hp hr hv =>
    ⟨⟨_, exec_inc hp hr hv, writeBack_eq s _ ea (isZero_add_one v), dataWrite_read_same _ _ _,
        fun _ => dataWrite_read_other _ _ _⟩,
      ⟨_, exec_dec hp hr hv, writeBack_eq s _ ea (isZero_sub_one v), dataWrite_read_same _ _ _,
        fun _ => dataWrite_read_other _ _ _⟩⟩

/-- Settles O30: the literal is not looked at. -/
theorem cmpChangesNothing : Obligations.CmpChangesNothing := by
  intro n s a ha
  rw [exec]
  exact withFetch_at ha _

/-! ## A store and what comes back from it -/

theorem dataRead_dataWrite (m : Memory) (a : Addr) (v : Value) : dataRead (dataWrite m a v.toNat) a = .ok v := by
  have hw : classify ((dataWrite m a v.toNat).read a) = .data (v.toNat : Int) := by
    rw [dataWrite_read_same, classify_lit]
  rw [dataRead_data hw, u16_value]

/-- Settles O58: the literal that STR writes reads back as AC. -/
theorem storeThenLoadGivesTheStoredValue : Obligations.StoreThenLoadGivesTheStoredValue := by
  intro m m' p p' s t ea hp hr hstr hr'
  cases hstr.symm.trans (exec_str (by omega) hr)
  exact ⟨_, exec_lda (Nat.succ_lt_succ hp) hr' (dataRead_dataWrite s.mem ea s.ac), rfl, rfl⟩

/-- Settles O59: the return cell is a data word, so it is skipped, and it points to the word after the call. -/
theorem subroutineCallAndReturn : Obligations.SubroutineCallAndReturn := by
  intro m p s t ea hp hr hjsa
  cases hjsa.symm.trans (exec_jsa (by omega) hr)
  have hcell : (dataWrite s.mem ea (s.pc + 1)).read ea = lit (s.pc + 1) := dataWrite_read_same _ _ _
  refine ⟨?skip, fun u hu hkept => ?ret⟩
  case skip =>
    rw [engineStep_skips (a := ea) rfl (by simp [hcell])]
    simp [State.commit, hcell]
  case ret =>
    have hpointer : classify (u.mem.read ea) = .data ((s.pc + 1 : Nat) : Int) := by
      rw [hkept, hcell, classify_lit]
    have hback : resolve u.mem .indirect (ea.val : Int) = .ok ⟨s.pc + 1, by omega⟩ := resolve_indirect hpointer
    exact ⟨_, exec_jmp hu hback, rfl, rfl, rfl⟩

end Sys2Proof.Proofs

/-! PROOFS. The instructions with no address operand (R120 to R138): CTA, the three skips, HAL, INP, OUT and the
handshake mnemonics, each from its fetched word. -/

namespace Sys2Proof.Proofs

open Sys2Proof.Machine

/-- The exclusive or with 16 ones is the complement. -/
theorem xor_ones_toNat (v : Value) : (v ^^^ 0xFFFF).toNat = 65535 - v.toNat := by
  have hones : (0xFFFF : Value) = BitVec.allOnes 16 := rfl
  rw [hones, BitVec.xor_allOnes, BitVec.toNat_not]

/-- Settles O32: the handler's exclusive or complements AC. -/
theorem ctaComplements : Obligations.CtaComplements := by
  intro s a ha
  rw [exec]
  exact ⟨_, withFetch_at ha _, rfl, xor_ones_toNat s.ac⟩

/-! ## The signs of a 16-bit value (R15) -/

theorem isZero_iff_toInt (v : Value) : isZero v = true ↔ v.toInt = 0 := by
  rw [isZero, beq_iff_eq, ← BitVec.toInt_inj]
  rfl

/-- Bit 15 is the sign of two's complement. -/
theorem isNegative_iff (v : Value) : isNegative v = true ↔ v.toInt < 0 := by
  rw [isNegative, ← BitVec.msb_eq_getLsbD_last, BitVec.msb_eq_toInt, decide_eq_true_eq]

theorem isPositive_iff (v : Value) : isPositive v = true ↔ 0 < v.toInt := by
  have hsplit : isPositive v = (!isNegative v && !isZero v) := rfl
  have hneg := isNegative_iff v
  have hzero := isZero_iff_toInt v
  rw [hsplit, Bool.and_eq_true, Bool.not_eq_true', Bool.not_eq_true', ← Bool.not_eq_true, ← Bool.not_eq_true, hneg,
    hzero]
  omega

theorem exec_skip {s : State} {a : Addr} {b : Bool} {P : Prop} [Decidable P] (ha : s.pc = a.val) (hb : b = true ↔ P) :
    (withFetch s fun a w => .next (s.commit a w (skipPc b s.pc))) =
      .next { s with ar := a, ir := s.mem.read s.pc, pc := if P then s.pc + 2 else s.pc + 1 } := by
  rw [withFetch_at ha, skipPc_eq_ite hb]
  rfl

/-- Settles O35: one skip for the three, whose conditions are those on the integer that AC stands for. -/
theorem skipInstructionsTestAccumulator : Obligations.SkipInstructionsTestAccumulator := by
  refine fun s a ha => ⟨?_, ?_, ?_⟩
  · rw [exec]
    exact exec_skip ha (isZero_iff_toInt s.ac)
  · rw [exec]
    exact exec_skip ha (isPositive_iff s.ac)
  · rw [exec]
    exact exec_skip ha (isNegative_iff s.ac)

/-- Settles O36: HAL commits PC itself, which leaves it as it is. -/
theorem halHalts : Obligations.HalHalts := by
  intro s a ha
  rw [exec]
  exact withFetch_at ha _

/-- Settles O37: the reduced sum is 16-bit addition, of a literal as of an answer. -/
theorem inpAddsInput : Obligations.InpAddsInput := by
  refine fun s a ha => ⟨fun n _ => ?_, ?_⟩
  · rw [exec, ← u16_add_nat]
    exact withFetch_at ha _
  · rw [exec, ← u16_add_nat]
    exact withFetch_at ha _

/-- Settles O38: the log is committed with AC at its end. -/
theorem outAppendsAccumulator : Obligations.OutAppendsAccumulator := by
  intro s a ha
  rw [exec]
  exact withFetch_at ha _

theorem advance_next {s : State} {a : Addr} (ha : s.pc = a.val) :
    advance s = .next (s.commit a (s.mem.read s.pc) (s.pc + 1)) :=
  withFetch_at ha _

/-- The seven handshake mnemonics are one no-op advance. -/
theorem exec_handshake {i : Instr} (hi : i ∈ [.sfi, .sfo, .put, .opt, .spi, .spo, .sie]) (s : State) :
    exec i s = advance s := by
  simp only [List.mem_cons, List.not_mem_nil, or_false] at hi
  rcases hi with rfl | rfl | rfl | rfl | rfl | rfl | rfl <;> rfl

/-- Settles O39: the advance commits AR, IR and PC alone. -/
theorem handshakesOnlyAdvance : Obligations.HandshakesOnlyAdvance :=
  fun _ s _ hi ha => (exec_handshake hi s).trans (advance_next ha)

end Sys2Proof.Proofs

/-! PROOFS. Steps of the machine (R84 to R95, R148, R153, R158): the engine's turn and each host operation from the
list of turns, and runs of several steps. -/

namespace Sys2Proof.Proofs

open Sys2Proof.Machine

/-! ## The turn a step takes -/

/-- After a turn that does not leave the machine running, `run()` returns exactly where it was under way. -/
theorem endRun_of_not_running {t : State} (m : Mode) (h : t.mode ≠ .running) :
    endRun m t = { t with
      replies := if m = .running then t.replies ++ [.report t.mode t.lastError] else t.replies } := by
  by_cases hm : m = .running
  · rw [hm, endRun_reports h, if_pos rfl]
    rfl
  · rw [endRun_same (.inl hm), if_neg hm]

section Turns

variable {s t : State} {rest : List Turn} {op : HostOp}

theorem step_host (h : s.pending = .host op :: rest) (ht : hostTurn op { s with pending := rest } = .next t) :
    step s = .next (endRun s.mode t) := by
  have hturn : step s = takeTurn (.host op) { s with pending := rest } := by
    rw [step_turn, h]
    rfl
  rw [hturn, takeTurn, ht, onNext_next]

/-- A host operation outside Running, or one after which the mode is Running, ends no run. -/
theorem step_host_goes_on (h : s.pending = .host op :: rest) (ht : hostTurn op { s with pending := rest } = .next t)
    (hm : s.mode ≠ .running ∨ t.mode = .running) : step s = .next t := by
  rw [step_host h ht, endRun_same hm]

/-- A host operation that keeps the mode ends no run. -/
theorem step_host_keeps_mode (h : s.pending = .host op :: rest) (ht : hostTurn op { s with pending := rest } = .next t)
    (hm : t.mode = s.mode) : step s = .next t := by
  by_cases hr : s.mode = .running
  · exact step_host_goes_on h ht (.inr (hm.trans hr))
  · exact step_host_goes_on h ht (.inl hr)

/-- A host operation after which the mode is not Running ends the run that was under way. -/
theorem step_host_leaves (h : s.pending = .host op :: rest) (ht : hostTurn op { s with pending := rest } = .next t)
    (hm : t.mode ≠ .running) :
    step s = .next { t with
      replies := if s.mode = .running then t.replies ++ [.report t.mode t.lastError] else t.replies } := by
  rw [step_host h ht, endRun_of_not_running _ hm]

/-- In Running the engine's turn, the next of the list or after its end (log 3), is an engine step, and where it
leaves Running `run()` returns (R72, R95). -/
theorem step_engine (hm : s.mode = .running) (h : s.pending = [] ∧ rest = [] ∨ s.pending = .engine :: rest) :
    step s = onNext (engineStep { s with pending := rest }) (endRun .running) := by
  have hturn : step s = takeTurn .engine { s with pending := rest } := by
    rw [step_turn]
    rcases h with ⟨h, rfl⟩ | h <;> rw [h] <;> rfl
  rw [hturn, takeTurn, engineTurn_runs (s := { s with pending := rest }) hm]
  simp only [hm]

/-- As `step_engine`, for an engine step that halts or stops. -/
theorem step_engine_leaves (hm : s.mode = .running) (h : s.pending = [] ∧ rest = [] ∨ s.pending = .engine :: rest)
    (ht : engineStep { s with pending := rest } = .next t) (hleave : t.mode ≠ .running) :
    step s = .next t.report := by
  rw [step_engine hm h, ht, onNext_next, endRun_reports hleave]

theorem not_running (hm : s.mode = .idle ∨ s.mode = .stopped) : s.mode ≠ .running := by
  rcases hm with hm | hm <;> simp [hm]

end Turns

theorem endRun_running_eq (t : State) :
    endRun .running t =
      if t.mode = .running then t else { t with replies := t.replies ++ [.report t.mode t.lastError] } := by
  by_cases h : t.mode = .running
  · rw [endRun_same (.inr h), if_pos h]
  · rw [endRun_reports h, if_neg h]
    rfl

/-! ## Engine steps -/

/-- Settles O40: the engine's turn runs the decoded instruction, and the end of a run is its report. -/
theorem stepRunsTheDecodedInstruction : Obligations.StepRunsTheDecodedInstruction := by
  intro s i rest hm hp _ hd hturn
  rw [step_engine hm hturn, engineStep_of_decode_ok (s := { s with pending := rest }) hp hd]
  exact congrArg _ (funext endRun_running_eq)

/-- In Running the engine's turn skips an empty or a data word, and the run goes on. -/
theorem step_skips {s : State} {a : Addr} {rest : List Turn} (ha : s.pc = a.val)
    (hw : classify (s.mem.read s.pc) ≠ .instr) (hm : s.mode = .running)
    (h : s.pending = [] ∧ rest = [] ∨ s.pending = .engine :: rest) :
    step s = .next { s with pending := rest, ar := a, ir := s.mem.read s.pc, pc := s.pc + 1 } := by
  rw [step_engine hm h, engineStep_skips (s := { s with pending := rest }) ha hw, onNext_next]
  exact congrArg _ (endRun_same (.inr hm))

/-- Settles O41: the skip commits AR, IR and PC, by whichever turn the engine step comes. -/
theorem stepSkipsEmptyAndDataWords : Obligations.StepSkipsEmptyAndDataWords := by
  refine fun s a ha hw => ⟨engineStep_skips ha hw, fun rest => step_skips ha hw, fun rest hm h => ?_⟩
  have hturn : hostTurn .step { s with pending := rest } =
      onNext (engineStep { s with pending := rest, lastError := none }) State.report := hostStep_runs hm
  rw [engineStep_skips (s := { s with pending := rest, lastError := none }) ha hw, onNext_next] at hturn
  exact step_host_goes_on h hturn (.inl (not_running hm))

/-! ## The host's operations -/

/-- Settles O48: `run()` by its two pairs of modes. -/
theorem runCommandStartsTheEngine : Obligations.RunCommandStartsTheEngine :=
  fun s rest h =>
    ⟨fun hm => step_host_goes_on h (hostRun_starts (s := { s with pending := rest }) hm) (.inr rfl),
      fun hm => step_host_keeps_mode h (hostRun_answers (s := { s with pending := rest }) hm) rfl⟩

/-- Settles O49: `step()` by its two pairs of modes; the engine step changes no reply before the report. -/
theorem hostStepRunsExactlyOneStep : Obligations.HostStepRunsExactlyOneStep := by
  refine fun s rest h => ⟨fun hm => ?_, fun hm => ?_⟩
  · obtain ⟨t, ht, -⟩ := engineStep_answers { s with pending := rest, lastError := none }
    have hturn : hostTurn .step { s with pending := rest } =
        onNext (engineStep { s with pending := rest, lastError := none }) State.report := hostStep_runs hm
    have hreplies : t.replies = s.replies := (engineStep_host_fields ht).2
    rw [ht, onNext_next] at hturn
    refine ⟨t, ht, ?_⟩
    rw [step_host_goes_on h hturn (.inl (not_running hm)), ← hreplies]
    rfl
  · exact step_host_keeps_mode h (hostStep_answers (s := { s with pending := rest }) hm) rfl

/-- Settles O50: a load of at most 32 words leads to Idle, and every other one only answers. -/
theorem loadReplacesTheWordStore : Obligations.LoadReplacesTheWordStore := by
  refine fun s ws rest h => ⟨fun hlen => ?_, fun hlen => ?_⟩
  · have hload : hostLoad ws { s with pending := rest } = _ := if_pos hlen
    refine ⟨_, step_host_leaves h hload nofun, rfl, fun a => ?_⟩
    have hread := Memory.read_ofWords ws 0 a
    rwa [Nat.zero_add] at hread
  · exact step_host_keeps_mode h (if_neg (Nat.not_le.2 hlen) : hostLoad ws { s with pending := rest } = _) rfl

/-- Settles O51: the reset state but for the kept fields, with the report of a run it ends. -/
theorem resetClearsAllButTheOutputLog : Obligations.ResetClearsAllButTheOutputLog :=
  fun s rest h =>
    ⟨_, step_host_leaves h (rfl : hostReset { s with pending := rest } = _) nofun,
      rfl, rfl, rfl, rfl, rfl, fun _ => rfl, rfl, rfl, rfl, rfl, rfl, rfl⟩

theorem words_length (m : Memory) : m.words.length = 32 := by
  rw [Memory.words, List.length_map, List.length_range]

theorem words_getElem? (m : Memory) {a : Nat} (ha : a < 32) : m.words[a]? = some (m.read a) := by
  rw [Memory.words, List.getElem?_map, List.getElem?_range ha, Option.map_some]

/-- Settles O52: both operations only answer, `dump()` with the words of the whole address range. -/
theorem dumpReturnsWordsInAddressOrder : Obligations.DumpReturnsWordsInAddressOrder := by
  refine fun s rest => ⟨fun h => ?_, fun h => ?_⟩
  · exact ⟨s.mem.words, words_length s.mem, fun _ => words_getElem? s.mem, step_host_keeps_mode h rfl rfl⟩
  · exact step_host_keeps_mode h rfl rfl

/-! ## Runs of several steps -/

/-- Settles O55: `stop()` changes the mode alone, and `run()` sets it back. -/
theorem stopThenRunResumes : Obligations.StopThenRunResumes := by
  refine fun s rest => ⟨fun hm hn h => ?_, fun hm h => ?_⟩
  · have hstop : step s = .next { s with
        mode := .stopped, pending := .host .run :: rest, replies := s.replies ++ [.report .stopped none] } := by
      rw [step_host_leaves h (hostStop_stops (s := { s with pending := .host .run :: rest }) hm) nofun, if_pos hm,
        ← hn]
    refine ⟨hstop, ?_⟩
    rw [runFor_succ hstop, runFor_succ ((runCommandStartsTheEngine _ rest rfl).1 (.inr rfl)), runFor_zero]
    simp only [← hm, ← hn]
  · exact step_host_goes_on h (hostStop_keeps (s := { s with pending := rest }) hm) (.inl hm)

end Sys2Proof.Proofs

/-! PROOFS. Runs of several steps: re-entry after an error (R149), and running off the end of the Word Store (R158). -/

namespace Sys2Proof.Proofs

open Sys2Proof.Machine

/-! ## Re-entry after an error (R149) -/

/-- A failing step changes the mode and the record alone; with these set back, it fails again in the same way,
whatever turns and replies the host has had meanwhile. -/
theorem engineStep_fails_again {s t : State} {r : ErrorRecord} (hn : s.lastError = none)
    (h : engineStep s = .next t) (herr : t.lastError = some r) (turns : List Turn) (replies : List HostReply) :
    engineStep { t with mode := s.mode, lastError := none, pending := turns, replies := replies } =
      .next { t with pending := turns, replies := replies } := by
  obtain ⟨rfl, -, -⟩ := failingStepCommitsNothing s t r hn h herr
  have hagain := engineStep_relabel turns replies s
  rw [h, onNext_next] at hagain
  rw [← hn]
  exact hagain

/-- Settles O56: `run()` sets the mode and the record back, so the engine step after it fails again. -/
theorem errorRepeatsOnReentry : Obligations.ErrorRepeatsOnReentry := by
  intro s t r rest hm hn h hstep herr
  obtain ⟨u, hu, rfl⟩ := onNext_inv ((step_engine hm (.inr h)).symm.trans hstep)
  rw [endRun_lastError] at herr
  have hfail := (failingStepCommitsNothing { s with pending := .host .run :: .engine :: rest } u r hn hu herr).1
  have hmode : u.mode = .stopped := by rw [hfail]
  have hpend : u.pending = .host .run :: .engine :: rest := by rw [hfail]
  have hreport : endRun .running u = u.report := endRun_reports (by rw [hmode]; decide)
  have hrun := (runCommandStartsTheEngine u.report (.engine :: rest) hpend).1 (.inr hmode)
  have hagain := engineStep_fails_again (s := { s with pending := .host .run :: .engine :: rest }) hn hu herr rest
    u.report.replies
  simp only [hm] at hagain
  have hlast : step { u.report with pending := .engine :: rest, lastError := none, mode := .running } =
      .next (State.report { u with pending := rest, replies := u.report.replies }) :=
    step_engine_leaves rfl (.inr rfl) hagain (by rw [hmode]; decide)
  rw [hreport]
  exact ⟨_, by rw [runFor_succ hrun, runFor_succ hlast, runFor_zero], rfl⟩

/-! ## Running off the end of the Word Store (R158) -/

/-- The fetch at 32 ends the run with OutOfRange, after the words before it set AR and IR. -/
def ranOff (s : State) (ar : Addr) (ir : Text) : State :=
  State.report { s with
    pc := 32, ar := ar, ir := ir, mode := .stopped
    lastError := some { address := 32, word := none, kind := .outOfRange 32 } }

theorem step_at_end {s : State} (hm : s.mode = .running) (hp : s.pending = []) (hpc : s.pc = 32) :
    step s = .next (ranOff s s.ar s.ir) := by
  have hraise : engineStep s = .next (s.raise none (.outOfRange s.pc)) := engineStep_outOfStore (by omega)
  rw [step_engine_leaves (rest := s.pending) hm (.inl ⟨hp, hp⟩) hraise nofun, ranOff, State.raise, hpc]
  rfl

/-- By induction on the number of words left: each is skipped, and the last of them is the one at 31. -/
theorem runFor_off_end (n : Nat) (s : State) (hm : s.mode = .running) (hp : s.pending = []) (hn : s.pc + n = 32)
    (hw : ∀ a, s.pc ≤ a → a < 32 → classify (s.mem.read a) ≠ .instr) :
    ∃ ar ir, runFor (n + 1) s = .next (ranOff s ar ir) ∧ (n = 0 → ar = s.ar ∧ ir = s.ir) ∧
      (0 < n → ar = 31 ∧ ir = s.mem.read 31) := by
  induction n generalizing s with
  | zero => exact ⟨_, _, runFor_succ (step_at_end hm hp hn), fun _ => ⟨rfl, rfl⟩, fun h => absurd h (by decide)⟩
  | succ n ih =>
    have hlt : s.pc < 32 := by omega
    have hskip := step_skips (a := ⟨s.pc, hlt⟩) rfl (hw s.pc le_rfl hlt) hm (.inl ⟨hp, rfl⟩)
    rw [← hp] at hskip
    obtain ⟨ar, ir, hrun, hzero, hpos⟩ := ih (s.commit ⟨s.pc, hlt⟩ (s.mem.read s.pc) (s.pc + 1)) hm hp
      (by rw [State.commit_pc]; omega) fun a ha => hw a (Nat.le_of_succ_le ha)
    refine ⟨ar, ir, (runFor_succ hskip).trans hrun, nofun, fun _ => ?_⟩
    rcases Nat.eq_zero_or_pos n with h0 | h0
    · obtain ⟨rfl, rfl⟩ := hzero h0
      have hpc : s.pc = 31 := by omega
      simp [hpc]
    · exact hpos h0

/-- Settles O57: from PC on there are 32 - PC words to skip, and one fetch more. -/
theorem runningOffTheEndRaisesOutOfRange : Obligations.RunningOffTheEndRaisesOutOfRange := by
  intro s hm hp hpc hw
  obtain ⟨ar, ir, hrun, -, hpos⟩ := runFor_off_end (32 - s.pc) s hm hp (by omega) hw
  rw [show 32 - s.pc + 1 = 33 - s.pc by omega] at hrun
  exact ⟨_, hrun, rfl, fun h => hpos (by omega)⟩

end Sys2Proof.Proofs
